-- ==== Sys2Proof/Word.lean ====
section
/-! DEFINITION. The word of the block: one beat carries 64 bits, bit 0 the least significant (R5 `DATA_W`, R10). -/

namespace Sys2Proof

/-- A 64-bit word: a header, a payload operand, a status word, a binary64 pattern (R5, R70, R75). -/
abbrev Word := BitVec 64

end Sys2Proof
end

