-- ==== Sys2Proof/Machine/Binary64.lean ====
section
/-! DEFINITION. binary64 data and the three operations of the data path (R90 to R96). Exact values are integers: the
value of a finite pattern is `fixed p * 2^-1074`, and every operation rounds its exact result once. -/

namespace Sys2Proof.Machine

/-- The sign bit `p[63]` (R90). -/
def signBit (p : Word) : Bool := p.getLsbD 63

/-- The exponent field `p[62:52]` (R90). -/
def expField (p : Word) : Nat := (p.extractLsb' 52 11).toNat

/-- The fraction `p[51:0]` (R90). -/
def fracField (p : Word) : Nat := (p.extractLsb' 0 52).toNat

/-- Exponent field 2047, fraction not 0 (R90). -/
def isNaN (p : Word) : Bool := expField p == 2047 && fracField p != 0

/-- Exponent field 2047, fraction 0 (R90). -/
def isInf (p : Word) : Bool := expField p == 2047 && fracField p == 0

/-- Zero, subnormal or normal (R90). -/
def isFinite (p : Word) : Bool := expField p != 2047

/-- One of the two zeros (R90). -/
def isZero (p : Word) : Bool := expField p == 0 && fracField p == 0

/-- `neg(p)`: bit 63 inverted (R91). -/
def neg (p : Word) : Word := p ^^^ 0x8000000000000000#64

/-- The magnitude of a finite pattern in units of 2^-1074: `f` for a zero or subnormal, `(2^52 + f) * 2^(e-1)` for a
normal (R90, R95). -/
def magnitude (p : Word) : Nat :=
  if expField p = 0 then fracField p else (2 ^ 52 + fracField p) * 2 ^ (expField p - 1)

/-- The signed value of a finite pattern in units of 2^-1074 (R90). -/
def fixed (p : Word) : Int := if signBit p then -(magnitude p : Int) else (magnitude p : Int)

/-- The positive or negative zero. -/
def zeroOf (s : Bool) : Word := if s then 0x8000000000000000 else 0x0000000000000000

/-- The positive or negative infinity. -/
def infOf (s : Bool) : Word := if s then 0xFFF0000000000000 else 0x7FF0000000000000

/-- `CNAN`, the canonical quiet NaN (R94). -/
def cnan : Word := 0x7FF8000000000000

/-- `q`, or `q + 1` where the discarded part `r` of `2^sh` is above one half, or is one half and `q` is odd (R92). -/
def roundHalfEven (q r sh : Nat) : Nat :=
  if 2 * r > 2 ^ sh ∨ (2 * r = 2 ^ sh ∧ q % 2 = 1) then q + 1 else q

/-- The magnitude bits (62:0) nearest to `n * 2^-(1074+k)`, ties to even, without the overflow test. `2^sh` units is the
distance of neighbouring patterns there: 53 bits of significand, and never below 2^-1074. The last line is the
encoding: exponent field and fraction of a significand `q` of weight `2^(sh-k)`, a carry out of the significand moving
into the exponent by itself. -/
def roundMagnitude (n k : Nat) : Nat :=
  let sh := max k (Nat.log2 n - 52)
  let q := roundHalfEven (n / 2 ^ sh) (n % 2 ^ sh) sh
  (sh - k) * 2 ^ 52 + q

/-- `round64` of the real `(-1)^s * n * 2^-(1074+k)`; `n = 0` gives the zero of sign `s`, a magnitude that reaches
2^1024 the infinity of sign `s` (R92). -/
def round64 (s : Bool) (n k : Nat) : Word :=
  if n = 0 then zeroOf s
  else if roundMagnitude n k < 2047 * 2 ^ 52 then zeroOf s ||| BitVec.ofNat 64 (roundMagnitude n k)
  else infOf s

/-- `fmul(a, b)` (R93, R94). -/
def fmul (a b : Word) : Word :=
  if isNaN a || isNaN b then cnan
  else if (isInf a && isZero b) || (isZero a && isInf b) then cnan
  else if isInf a || isInf b then infOf (signBit a != signBit b)
  else round64 (signBit a != signBit b) (magnitude a * magnitude b) 1074

/-- `fadd(a, b)` (R93, R94). -/
def fadd (a b : Word) : Word :=
  if isNaN a || isNaN b then cnan
  else if isInf a && isInf b && (signBit a != signBit b) then cnan
  else if isInf a then a
  else if isInf b then b
  else
    let r := fixed a + fixed b
    if r = 0 then zeroOf (isZero a && isZero b && signBit a && signBit b)
    else round64 (r < 0) r.natAbs 0

/-- `fsub(a, b)` (R93). -/
def fsub (a b : Word) : Word := if isNaN b then cnan else fadd a (neg b)

end Sys2Proof.Machine
end

