-- ==== Sys2Proof/Config.lean ====
section
/-! DEFINITION. What one build of the block fixes (`P_FRAC`, R5) and the values the spec leaves open (R37, U1). -/

namespace Sys2Proof

/-- The build parameters of an instance. `pFrac` is `P_FRAC`, the comparator's working precision: the number of
fractional decimal digits of the rendering, an integer of at least 1 (R5, R147, D18, U6). -/
structure Config where
  pFrac : Nat
deriving DecidableEq, Repr

/-- The build every vector of the spec uses unless it says otherwise: `P_FRAC = 50` (R5, R147). -/
def Config.default : Config := { pFrac := 50 }

/-- FREE VALUE (log 3): what a latch or a buffer element that reset leaves unspecified holds after a reset edge
(R37, R196, U1 `any value`). It has no body, so no proof can see a value of it. The argument is the number of
free values drawn before. -/
opaque Config.unspecifiedWord : Nat → Word

end Sys2Proof
end

