-- ==== Sys2Proof/Syntax.lean ====
section
/-! DEFINITION. Commands as syntax: one constructor of `Instr` per row of spec/opcode_table.json (R72, R84),
beats and frames (R9, R12, R70). -/

namespace Sys2Proof

/-- The three operations of the block (R72). -/
inductive Instr where
  /-- `DCT.DIRECT`, opcode 0x01 (R110). -/
  | dctDirect
  /-- `DCT.FAST`, opcode 0x02 (R125). -/
  | dctFast
  /-- `CMP.SIG`, opcode 0x03; `s` is the significance count, header bits 15:8, 0..255 (R73, R145, R146). -/
  | cmpSig (s : BitVec 8)
deriving DecidableEq, Repr

/-- One 64-bit word transferred on a channel together with its last-flag (R9, R12). -/
structure Beat where
  data : Word
  last : Bool
deriving DecidableEq, Repr

/-- A command frame: a header word and its payload words (R70, R209). -/
structure Frame where
  header  : Word
  payload : List Word
deriving DecidableEq, Repr

end Sys2Proof
end

