-- ==== Sys2Proof/WellFormed.lean ====
section
/-! DEFINITION. Which header words are legal (R76) and which frames carry the number of payload beats their command
takes (R72, R77). -/

namespace Sys2Proof

/-- Header bits 63:16 are zero (R71, R76). -/
def headerReservedClear (h : Word) : Bool := h.extractLsb' 16 48 == 0#48

/-- `OPC`, header bits 7:0, is one of the three operations (R72, R76). -/
def headerOpcodeKnown (h : Word) : Bool :=
  h.extractLsb' 0 8 == 0x01#8 || h.extractLsb' 0 8 == 0x02#8 || h.extractLsb' 0 8 == 0x03#8

/-- `S`, header bits 15:8, is zero on the two transforms (R71, R76). -/
def headerSZeroOnTransform (h : Word) : Bool :=
  !(h.extractLsb' 0 8 == 0x01#8 || h.extractLsb' 0 8 == 0x02#8) || h.extractLsb' 8 8 == 0#8

/-- A legal header word (R76). -/
def legalHeader (h : Word) : Bool :=
  headerReservedClear h && headerOpcodeKnown h && headerSZeroOnTransform h

/-- The payload of a `CMP.SIG` frame is exactly 2 beats, of any other frame exactly 32 (R72 "payload beats"). -/
def Frame.payloadCountRight (f : Frame) : Bool :=
  if f.header.extractLsb' 0 8 == 0x03#8 then f.payload.length == 2 else f.payload.length == 32

/-- A frame the block answers with status OK: a legal header and the right number of payload beats (R76, R77). -/
def Frame.wellFormed (f : Frame) : Bool := legalHeader f.header && f.payloadCountRight

end Sys2Proof
end

