-- ==== Sys2Proof/Decode.lean ====
section
/-! DEFINITION. The header word to an instruction or a named rejection (R71, R76, R84), and back. The header is the
only word of a frame that is decoded (R74, R84). -/

namespace Sys2Proof

/-- Why a header is illegal (R76). Each ends in status ILLEGAL_COMMAND (R172). -/
inductive Reject where
  /-- Header bits 63:16 are not all zero. -/
  | reservedBits
  /-- `OPC` is 0x00 or 0x04..0xFF. -/
  | unknownOpcode
  /-- `S` is not zero on a transform. -/
  | sOnTransform
deriving DecidableEq, Repr

/-- What a header word stands for. -/
inductive Decoded where
  | legal (i : Instr)
  | illegal (why : Reject)
deriving DecidableEq, Repr

/-- `OPC = H[7:0]` (R71). -/
def headerOpc (h : Word) : BitVec 8 := h.extractLsb' 0 8

/-- `S = H[15:8]` (R71, R73). -/
def headerS (h : Word) : BitVec 8 := h.extractLsb' 8 8

/-- The reserved bits `H[63:16]` (R71). -/
def headerRsv (h : Word) : BitVec 48 := h.extractLsb' 16 48

/-- The decoder, total on every header word (R76, R84). -/
def decode (h : Word) : Decoded :=
  if headerRsv h ≠ 0 then .illegal .reservedBits
  else if headerOpc h = 0x01 then
    if headerS h = 0 then .legal .dctDirect else .illegal .sOnTransform
  else if headerOpc h = 0x02 then
    if headerS h = 0 then .legal .dctFast else .illegal .sOnTransform
  else if headerOpc h = 0x03 then .legal (.cmpSig (headerS h))
  else .illegal .unknownOpcode

/-- The header word of an instruction: `OPC + S * 2^8`, reserved bits zero (R71, R82). -/
def encode : Instr → Word
  | .dctDirect => 0x0000000000000001
  | .dctFast   => 0x0000000000000002
  | .cmpSig s  => BitVec.ofNat 64 (0x03 + s.toNat * 2 ^ 8)

/-- The instruction of a decoded header, none for an illegal one. -/
def Decoded.instr? : Decoded → Option Instr
  | .legal i   => some i
  | .illegal _ => none

/-- The instruction the decoder reads from the opcode table's numbering of a row's bits: `w`'s low `nbits` bits, the
bits above them zero. A header is one 64-bit word moved in parallel, so no byte order enters (R61, R70; log 14). -/
def decodeTableWord (nbits w : Nat) : Option Instr :=
  (decode (BitVec.ofNat 64 (w % 2 ^ nbits))).instr?

end Sys2Proof
end

