-- ==== Sys2Proof/Machine/State.lean ====
section
/-! DEFINITION. The state of one instance: every item of R20, the build parameter of R196, and the two channels and the
schedule of edges that the model holds as plain data (log 5, log 6, log 7). -/

namespace Sys2Proof.Machine

/-- The sequencer's three phases (R25). -/
inductive Phase where
  | idle
  | collect
  | respond
deriving DecidableEq, Repr

/-- What happens at one rising edge of `clk` (R52, R195). -/
inductive Turn where
  /-- `rst = 0` and both sides are ready: the event enabled in this phase takes place, if the host has a beat for it. -/
  | transfer
  /-- `rst = 0` and one side is not ready: nothing is transferred (R52, R57, R205). -/
  | idle
  /-- `rst = 1` (R195). -/
  | reset
deriving DecidableEq, Repr

/-- Why a step faults. -/
inductive Fault where
  /-- Raised by the response event (R60) when RIDX > 32, that is when it would read an element that XB[0..31] does not
  have (R22). No run reaches it (log 11). Safe: the model stops where the spec gives no word to send. -/
  | rspIndexOutOfRange
deriving DecidableEq, Repr

/-- Why a step is refused. -/
inductive Refusal where
  /-- Raised by an arm of exec that has no meaning yet; no arm of this model uses it. Safe. -/
  | notModelled (mnemonic : String)
deriving DecidableEq, Repr

/-- The state of the machine. `phase` to `ridx` are R20's items in its order (COSQ is a constant: R32, R33, R36); `cfg`
is the build parameter, which no step writes (R5, R36, R196); `cmd`, `rsp`, `turns`, `draws` are the model's own. -/
structure State where
  /-- `PHASE` (R25). -/
  phase : Phase
  /-- `HDR`, the header beat of the frame in progress (R26). -/
  hdr : Word
  /-- `LEN`, the saturating count of payload beats (R27). -/
  len : BitVec 16
  /-- `SB[0..31]`, the sample buffer (R21). -/
  sb : Vector Word 32
  /-- `XB[0..31]`, the coefficient buffer (R22). -/
  xb : Vector Word 32
  /-- `RSTAT`, the status beat of the response (R28). -/
  rstat : Word
  /-- `RIDX`, the number of response beats already sent (R29). -/
  ridx : Nat
  /-- `P_FRAC` (R5, R147). -/
  cfg : Config
  /-- The command channel: the beats the host offers, next one first (R24, R50; log 5). -/
  cmd : List Beat
  /-- The response channel: the beats transferred so far, oldest first (R208; log 6). -/
  rsp : List Beat
  /-- What happens at the coming edges; after the last entry every edge is a transfer edge (log 7). -/
  turns : List Turn
  /-- How many free values have been drawn (log 4). -/
  draws : Nat
deriving DecidableEq, Repr

/-- The state right after reset (R37, R195, R196). HDR, SB, XB and RSTAT, to which the spec gives no value, are zero
here: DESIGN CHOICE, log 2. No statement rests on those zeros. -/
def State.reset : State where
  phase := .idle
  hdr := 0
  len := 0
  sb := Vector.replicate 32 0
  xb := Vector.replicate 32 0
  rstat := 0
  ridx := 0
  cfg := Config.default
  cmd := []
  rsp := []
  turns := []
  draws := 0

end Sys2Proof.Machine
end

