-- ==== Sys2Proof/Machine/Flags.lean ====
section
/-! DEFINITION. The status word and its fields: STATUS, OPC, LEN and the only flag-like results of the block, MATCH and
REASON (R30, R59, R78 to R80, R170). There is no condition code and no floating-point flag (R30, R96, U19). -/

namespace Sys2Proof.Machine

/-- The three errors a command can end in (R170). -/
inductive CmdError where
  /-- A legal transform header and a payload of other than 32 beats (R171). -/
  | invalidLength
  /-- An illegal header (R172). -/
  | illegalCommand
  /-- A legal `CMP.SIG` header and a payload of other than 2 beats (R173). -/
  | badOperandCount
deriving DecidableEq, Repr

/-- STATUS `OK` (R79). -/
def statusOk : BitVec 8 := 0x00

/-- The STATUS code of an error (R79, R170). -/
def CmdError.code : CmdError → BitVec 8
  | .invalidLength   => 0x01
  | .illegalCommand  => 0x02
  | .badOperandCount => 0x03

/-- The comparator's outcome, MATCH and REASON together (R80). -/
inductive Verdict where
  /-- Step 6: the first `S` characters agree. -/
  | agree
  /-- Step 2: the operands have different signs. -/
  | signsDiffer
  /-- Step 5: aligned strings of different length, one shorter than `S`. -/
  | tooShort
  /-- Step 6: some character among the first `S` differs. -/
  | digitsDiffer
  /-- Before step 1: an operand is a NaN or an infinity. -/
  | nonFinite
deriving DecidableEq, Repr

/-- MATCH (R80). -/
def Verdict.matchBit : Verdict → BitVec 1
  | .agree        => 1
  | .signsDiffer  => 0
  | .tooShort     => 0
  | .digitsDiffer => 0
  | .nonFinite    => 0

/-- REASON (R80). -/
def Verdict.reason : Verdict → BitVec 3
  | .agree        => 0
  | .signsDiffer  => 1
  | .tooShort     => 2
  | .digitsDiffer => 3
  | .nonFinite    => 4

/-- `StatusWord(st, opc, len, m, r)` is the word `st + opc * 2^8 + len * 2^16 + m * 2^32 + r * 2^33` (R78). -/
def statusWord (st opc : BitVec 8) (len : BitVec 16) (m : BitVec 1) (r : BitVec 3) : Word :=
  BitVec.ofNat 64 (st.toNat + opc.toNat * 2 ^ 8 + len.toNat * 2 ^ 16 + m.toNat * 2 ^ 32 + r.toNat * 2 ^ 33)

/-- STATUS, bits 7:0 of a status word (R78). -/
def statusField (w : Word) : BitVec 8 := w.extractLsb' 0 8

/-- OPC, bits 15:8 of a status word (R78). -/
def statusOpc (w : Word) : BitVec 8 := w.extractLsb' 8 8

/-- LEN, bits 31:16 of a status word (R78). -/
def statusLen (w : Word) : BitVec 16 := w.extractLsb' 16 16

/-- MATCH, bit 32 of a status word (R78). -/
def statusMatch (w : Word) : BitVec 1 := w.extractLsb' 32 1

/-- REASON, bits 35:33 of a status word (R78). -/
def statusReason (w : Word) : BitVec 3 := w.extractLsb' 33 3

/-- The bits 63:36 of a status word, always zero (R78). -/
def statusUpper (w : Word) : BitVec 28 := w.extractLsb' 36 28

/-- `NB`: a response has 33 beats exactly when its status beat says OK and names a transform, else one (R59). -/
def responseBeats (rstat : Word) : Nat :=
  if statusField rstat = statusOk ∧ (statusOpc rstat = 0x01 ∨ statusOpc rstat = 0x02) then 33 else 1

end Sys2Proof.Machine
end

