-- ==== Sys2Proof/Machine/Operands.lean ====
section
/-! DEFINITION. The operand forms: payload operands by position and the one immediate (R23, R58, R73, R74). Every 64-bit
pattern is a legal operand (R74, R204). -/

namespace Sys2Proof.Machine

/-- The Sample Block of a transform: a copy of `SB[0..31]` (R58, R74). -/
def sampleBlock (s : State) : Vector Word 32 := s.sb

/-- Operand `A` of `CMP.SIG` is `SB[0]` (R23). -/
def operandA (s : State) : Word := s.sb[0]

/-- Operand `B` of `CMP.SIG` is `SB[1]` (R23). -/
def operandB (s : State) : Word := s.sb[1]

/-- The significance count, zero-extended, unscaled (R73). -/
def significance (s : BitVec 8) : Nat := s.toNat

/-- The value of LEN a command takes: 32 for a transform, 2 for `CMP.SIG` (R58, R72). -/
def operandCount : Instr → BitVec 16
  | .dctDirect => 32
  | .dctFast   => 32
  | .cmpSig _  => 2

end Sys2Proof.Machine
end

