-- ==== Sys2Proof/Machine/Ops.lean ====
section
/-! DEFINITION. The shared operations on the state: capturing beats (R54 to R56), ending a command well or in an error
(R58, R176), sending a response beat (R60, R177), the reset edge (R195, R196). -/

namespace Sys2Proof.Machine

/-- `LEN <- min(LEN + 1, 0xFFFF)` (R27, R101). -/
def nextLen (len : BitVec 16) : BitVec 16 := if len = 0xFFFF then 0xFFFF else len + 1

/-- What a header beat writes besides PHASE (R26, R54). -/
def captureHeader (d : Word) (s : State) : State := { s with hdr := d, len := 0 }

/-- The sample buffer after a payload beat: `if LEN < 32 then SB[LEN] <- d` (R55, R56). -/
def storeSample (d : Word) (len : BitVec 16) (sb : Vector Word 32) : Vector Word 32 :=
  if h : len.toNat < 32 then sb.set len.toNat d h else sb

/-- What a payload beat writes besides PHASE (R55, R56). -/
def capturePayload (d : Word) (s : State) : State :=
  { s with sb := storeSample d s.len s.sb, len := nextLen s.len }

/-- The end of every `Exec`: RSTAT is built, RIDX is 0, PHASE is RESPOND (R58, R176). -/
def respond (status : Word) (s : State) : State := { s with rstat := status, ridx := 0, phase := .respond }

/-- TAKING AN EXCEPTION: `raise E`. The status beat carries the code, the echoed low byte of HDR and LEN; nothing else
is written, nothing is saved, no vector is computed, no mode changes (R11, R58, R176). -/
def raise (e : CmdError) (s : State) : State :=
  respond (statusWord e.code (headerOpc s.hdr) s.len 0 0) s

/-- The end of a successful transform: all of XB is written and the status is OK (R22, R58). -/
def completeTransform (x : Vector Word 32) (s : State) : State :=
  respond (statusWord statusOk (headerOpc s.hdr) s.len 0 0) { s with xb := x }

/-- The end of a successful comparison (R58, R159). -/
def completeCompare (v : Verdict) (s : State) : State :=
  respond (statusWord statusOk (headerOpc s.hdr) s.len v.matchBit v.reason) s

/-- The word offered in RESPOND: RSTAT, then `XB[RIDX - 1]`; none where XB has no such element (R60; log 11). -/
def responseWord (s : State) : Option Word := if s.ridx = 0 then some s.rstat else s.xb[s.ridx - 1]?

/-- The beat offered in RESPOND, `rsp_last` on number NB - 1 (R60). -/
def offeredBeat (s : State) : Option Beat :=
  (responseWord s).map fun d => { data := d, last := s.ridx + 1 == responseBeats s.rstat }

/-- The event `RspBeat`, which is also THE RETURN FROM AN ERROR: RIDX is counted up and the beat with last-flag 1 ends
the command (R60, R177). -/
def sendBeat (b : Beat) (s : State) : State :=
  { s with ridx := s.ridx + 1, phase := if b.last then .idle else s.phase, rsp := s.rsp ++ [b] }

/-- How many items a reset edge leaves unspecified: HDR, RSTAT, SB[0..31], XB[0..31] (R196). -/
def unspecifiedItems : Nat := 66

/-- An edge with `rst = 1`: PHASE, LEN, RIDX take their reset values; HDR, RSTAT, SB, XB are unspecified and take free
values (log 3); P_FRAC and what the host holds or has received are not touched (R195, R196, R198). -/
def resetEdge (s : State) : State :=
  { s with
    phase := .idle
    len := 0
    ridx := 0
    hdr := Config.unspecifiedWord s.draws
    rstat := Config.unspecifiedWord (s.draws + 1)
    sb := Vector.ofFn fun i : Fin 32 => Config.unspecifiedWord (s.draws + 2 + i)
    xb := Vector.ofFn fun i : Fin 32 => Config.unspecifiedWord (s.draws + 34 + i)
    draws := s.draws + unspecifiedItems }

/-- The beats of a frame: the last word, and only it, has last-flag 1 (R12, R70, R81). -/
def beatsOf : List Word → List Beat
  | []      => []
  | [w]     => [{ data := w, last := true }]
  | w :: ws => { data := w, last := false } :: beatsOf ws

/-- A command frame on the wire (R70). -/
def frameBeats (f : Frame) : List Beat := beatsOf (f.header :: f.payload)

end Sys2Proof.Machine
end

