-- ==== Sys2Proof/Machine/Compare.lean ====
section
/-! DEFINITION. The comparator `CmpSig` and the meaning of `CMP.SIG` (R145 to R159). -/

namespace Sys2Proof.Machine

/-- A character of a rendering: a decimal digit or the decimal point (R149). -/
inductive Glyph where
  | digit (d : Fin 10)
  | point
deriving DecidableEq, Repr

/-- The decimal digits of `q` before `acc`, at most `fuel + 1` of them. -/
def decimalAux : Nat → Nat → List Glyph → List Glyph
  | 0, q, acc => .digit (Fin.ofNat 10 q) :: acc
  | fuel + 1, q, acc =>
    if q < 10 then .digit (Fin.ofNat 10 q) :: acc
    else decimalAux fuel (q / 10) (.digit (Fin.ofNat 10 q) :: acc)

/-- The decimal digits of `q`, most significant first, no leading zeros, "0" for 0 (R149). -/
def decimal (q : Nat) : List Glyph := decimalAux (Nat.log2 q) q []

/-- `q`: the magnitude times 10^P rounded to an integer, half to even, on the exact value (R149). -/
def scaledRound (v : Word) (p : Nat) : Nat :=
  roundHalfEven (magnitude v * 10 ^ p / 2 ^ 1074) (magnitude v * 10 ^ p % 2 ^ 1074) 1074

/-- The digits of `q` padded on the left with zeros to at least `P + 1` (R149). -/
def paddedDigits (q p : Nat) : List Glyph :=
  List.replicate (p + 1 - (decimal q).length) (.digit 0) ++ decimal q

/-- `Render(v, P)` (R149). -/
def render (v : Word) (p : Nat) : List Glyph :=
  let d := paddedDigits (scaledRound v p) p
  d.take (d.length - p) ++ Glyph.point :: d.drop (d.length - p)

/-- A leading character that step 4 strips: `0` or `.` (R153). -/
def strippable (g : Glyph) : Bool := g == .digit 0 || g == .point

/-- Step 4: one character from each string, while both leading characters are `0` or `.` (R153, R157). -/
def align : List Glyph → List Glyph → List Glyph × List Glyph
  | a :: sa, b :: sb => if strippable a && strippable b then align sa sb else (a :: sa, b :: sb)
  | sa, sb => (sa, sb)

/-- `sgn(v)` (R151). -/
def sgn (v : Word) : Int := if isZero v then 0 else if signBit v then -1 else 1

/-- Steps 5 and 6 on the aligned strings (R154, R155). -/
def compareAligned (sa sb : List Glyph) (s : Nat) : Verdict :=
  if sa.length ≠ sb.length ∧ (sa.length < s ∨ sb.length < s) then .tooShort
  else if sa.take s = sb.take s then .agree
  else .digitsDiffer

/-- `CmpSig(A, B, S, P)` (R158). -/
def cmpSig (a b : Word) (s p : Nat) : Verdict :=
  if !isFinite a || !isFinite b then .nonFinite
  else if sgn a ≠ 0 ∧ sgn b ≠ 0 ∧ sgn a ≠ sgn b then .signsDiffer
  else
    let r := align (render a p) (render b p)
    compareAligned r.1 r.2 s

/-- `CMP.SIG S` at `Exec`: with LEN = 2 the comparison of `SB[0]` and `SB[1]`, else BadOperandCount (R58, R158, R173). -/
def execCmpSig (sig : BitVec 8) (s : State) : Host.Outcome State Fault Refusal :=
  if s.len = operandCount (.cmpSig sig) then
    .next (completeCompare (cmpSig (operandA s) (operandB s) (significance sig) s.cfg.pFrac) s)
  else .next (raise .badOperandCount s)

end Sys2Proof.Machine
end

