-- ==== Sys2Proof/Machine/Cosine.lean ====
section
/-! DEFINITION. The cosine ROM and the constants read from it by index folding (R32, R97 to R100). -/

namespace Sys2Proof.Machine

/-- The 33 words of the ROM as R98 lists them. -/
def cosqTable : List Word :=
  [0x3FF0000000000000, 0x3FEFF621E3796D7E, 0x3FEFD88DA3D12526, 0x3FEFA7557F08A517,
   0x3FEF6297CFF75CB0, 0x3FEF0A7EFB9230D7, 0x3FEE9F4156C62DDA, 0x3FEE212104F686E5] ++
  [0x3FED906BCF328D46, 0x3FECED7AF43CC773, 0x3FEC38B2F180BDB1, 0x3FEB728345196E3E,
   0x3FEA9B66290EA1A3, 0x3FE9B3E047F38741, 0x3FE8BC806B151741, 0x3FE7B5DF226AAFAF] ++
  [0x3FE6A09E667F3BCD, 0x3FE57D69348CECA0, 0x3FE44CF325091DD6, 0x3FE30FF7FCE17035,
   0x3FE1C73B39AE68C8, 0x3FE073879922FFEE, 0x3FDE2B5D3806F63B, 0x3FDB5D1009E15CC0] ++
  [0x3FD87DE2A6AEA963, 0x3FD58F9A75AB1FDD, 0x3FD294062ED59F06, 0x3FCF19F97B215F1B,
   0x3FC8F8B83C69A60B, 0x3FC2C8106E8E613A, 0x3FB917A6BC29B42C, 0x3FA91F65F10DD814] ++
  [0x0000000000000000]

/-- `COSQ[i]`, 0 ≤ i ≤ 32: the hardware's cos(π·i/64) (R32, R97, R98). -/
def cosq (i : Nat) : Word := cosqTable.getD i 0

/-- `cosang(j)`: the hardware's cos(π·j/64) for every j ≥ 0, by folding j mod 128 (R99). -/
def cosang (j : Nat) : Word :=
  let m := j % 128
  if m ≤ 32 then cosq m
  else if m ≤ 64 then neg (cosq (64 - m))
  else if m < 96 then neg (cosq (m - 64))
  else cosq (128 - m)

/-- `sinq(k)`, 0 ≤ k ≤ 32: the hardware's sin(π·k/64) (R100). -/
def sinq (k : Nat) : Word := cosq (32 - k)

/-- `W[t].re`, 0 ≤ t ≤ 15 (R100). -/
def twiddleRe (t : Nat) : Word := cosang (4 * t)

/-- `W[t].im`, 0 ≤ t ≤ 15: +0 for t = 0, else `neg(COSQ[|32 - 4t|])` (R100). -/
def twiddleIm (t : Nat) : Word :=
  if t = 0 then 0 else neg (cosq ((32 - 4 * (t : Int)).natAbs))

end Sys2Proof.Machine
end

