-- ==== Sys2Proof/Machine/Direct.lean ====
section
/-! DEFINITION. The function `DctDirect` (R111) and the meaning of `DCT.DIRECT` (R110, R113). -/

namespace Sys2Proof.Machine

/-- One multiply-accumulate of bin `k`: `ACC <- fadd(ACC, fmul(x[n], cosang((2n+1)k)))` (R111). -/
def dctMac (x : Vector Word 32) (k : Nat) (acc : Word) (n : Fin 32) : Word :=
  fadd acc (fmul x[n] (cosang ((2 * n + 1) * k)))

/-- Bin `k`: the chain of the 32 terms n = 0, 1, ..., 31 from the accumulator +0 (R111). -/
def dctBin (x : Vector Word 32) (k : Nat) : Word := (List.finRange 32).foldl (dctMac x k) 0

/-- `DctDirect(x)` (R111). -/
def dctDirect (x : Vector Word 32) : Vector Word 32 := Vector.ofFn fun k => dctBin x k

/-- `DCT.DIRECT` at `Exec`: with LEN = 32 XB takes `DctDirect` of the Sample Block, else InvalidLength (R58, R110, R171).
No value of a sample raises anything (R113, R114). -/
def execDctDirect (s : State) : Host.Outcome State Fault Refusal :=
  if s.len = operandCount .dctDirect then .next (completeTransform (dctDirect (sampleBlock s)) s)
  else .next (raise .invalidLength s)

end Sys2Proof.Machine
end

