-- ==== Sys2Proof/Machine/Fast.lean ====
section
/-! DEFINITION. The function `DctFast`: fold, 32-point FFT, twiddle post-processing (R126 to R131),
and the meaning of `DCT.FAST` (R125, R134). -/

namespace Sys2Proof.Machine

/-- One complex element of the work array (R34, R128). -/
structure Cplx where
  re : Word
  im : Word
deriving DecidableEq, Repr

/-- Where the folded block takes element `i` from: `v[n] = x[2n]`, `v[31-n] = x[2n+1]` (R127). -/
def foldIndex (i : Nat) : Nat := if i < 16 then 2 * i else 2 * (31 - i) + 1

/-- `Fold(x)` (R127). -/
def fold (x : Vector Word 32) : List Word := (List.range 32).map fun i => x.toList.getD (foldIndex i) 0

/-- `brev5(n)`: the five bits of `n` in reverse order (R128). -/
def brev5 (n : Nat) : Nat :=
  n % 2 * 16 + n / 2 % 2 * 8 + n / 4 % 2 * 4 + n / 8 % 2 * 2 + n / 16 % 2

/-- The load in bit-reversed order with imaginary parts +0: `A[brev5(n)] = v[n]`; `brev5` is its own inverse, so
element `i` comes from `v[brev5(i)]` (R128). -/
def fftLoad (v : List Word) : List Cplx := (List.range 32).map fun i => ⟨v.getD (brev5 i) 0, 0⟩

/-- The indices of one butterfly: `Bfly(p, q, t)` (R129). -/
structure BflyIndex where
  p : Nat
  q : Nat
  t : Nat
deriving DecidableEq, Repr

/-- The two results of a butterfly on `u = A[p]`, `b = A[q]` with twiddle index `t` (R129). -/
def bflyPair (t : Nat) (u b : Cplx) : Cplx × Cplx :=
  let tr := fsub (fmul (twiddleRe t) b.re) (fmul (twiddleIm t) b.im)
  let ti := fadd (fmul (twiddleRe t) b.im) (fmul (twiddleIm t) b.re)
  (⟨fadd u.re tr, fadd u.im ti⟩, ⟨fsub u.re tr, fsub u.im ti⟩)

/-- Element `i` of the work array. -/
def cplxAt (a : List Cplx) (i : Nat) : Cplx := a.getD i ⟨0, 0⟩

/-- `Bfly(p, q, t)` on the work array (R129). -/
def bfly (a : List Cplx) (i : BflyIndex) : List Cplx :=
  let r := bflyPair i.t (cplxAt a i.p) (cplxAt a i.q)
  (a.set i.p r.1).set i.q r.2

/-- The butterflies of stage `s`, 1 ≤ s ≤ 5, in the order of R130. -/
def fftStage (s : Nat) : List BflyIndex :=
  (List.range (32 / 2 ^ s)).flatMap fun b =>
    (List.range (2 ^ s / 2)).map fun j =>
      { p := b * 2 ^ s + j, q := b * 2 ^ s + j + 2 ^ s / 2, t := j * (32 / 2 ^ s) }

/-- The whole schedule, stages 1 to 5 (R130). -/
def fftSchedule : List BflyIndex := fftStage 1 ++ fftStage 2 ++ fftStage 3 ++ fftStage 4 ++ fftStage 5

/-- `Fft32(v)` (R128 to R130). -/
def fft32 (v : List Word) : List Cplx := fftSchedule.foldl bfly (fftLoad v)

/-- Bin `k` of `PostTwiddle(A)` (R131). -/
def postTwiddle (a : List Cplx) (k : Nat) : Word :=
  fadd (fmul (cosq k) (cplxAt a k).re) (fmul (cosq (32 - k)) (cplxAt a k).im)

/-- `DctFast(x)` (R126). DEDUCED, log 15: R135 remarks that one infinite sample among finite ones makes all 32 bins NaN;
R126 to R131 do not give that at every position (one at index 0 makes every bin that infinity), and they are followed. -/
def dctFast (x : Vector Word 32) : Vector Word 32 :=
  let a := fft32 (fold x)
  Vector.ofFn fun k => postTwiddle a k

/-- `DCT.FAST` at `Exec`: with LEN = 32 XB takes `DctFast` of the Sample Block, else InvalidLength (R58, R125, R171). No
side effect, no first use (R134, R136). -/
def execDctFast (s : State) : Host.Outcome State Fault Refusal :=
  if s.len = operandCount .dctFast then .next (completeTransform (dctFast (sampleBlock s)) s)
  else .next (raise .invalidLength s)

end Sys2Proof.Machine
end

