-- ==== Sys2Proof/Machine/Dispatch.lean ====
section
/-! DEFINITION. What `Exec` does for each instruction (R58), one arm per row of spec/opcode_table.json. -/

namespace Sys2Proof.Machine

def exec (i : Instr) (s : State) : Host.Outcome State Fault Refusal :=
  match i with
  | .dctDirect => Sys2Proof.Machine.execDctDirect s
  | .dctFast => Sys2Proof.Machine.execDctFast s
  | .cmpSig sig => Sys2Proof.Machine.execCmpSig sig s

end Sys2Proof.Machine
end

