-- ==== Sys2Proof/Machine/Sequencer.lean ====
section
/-! DEFINITION. The sequencer: what one rising edge of `clk` does (R25, R52, R54 to R60, R195). -/

namespace Sys2Proof.Machine

/-- `Exec`, taken at once after the command beat with last-flag 1: the header collected in HDR is decoded and, if it is
legal, run; an illegal header raises ILLEGAL_COMMAND whatever the payload (R58, R76, R172, R179). -/
def execFrame (s : State) : Host.Outcome State Fault Refusal :=
  match decode s.hdr with
  | .legal i   => exec i s
  | .illegal _ => .next (raise .illegalCommand s)

/-- What a command beat writes before `Exec` can run: it is a header in IDLE, a payload beat in COLLECT (R54, R55). -/
def capture (b : Beat) (s : State) : State :=
  if s.phase = .idle then captureHeader b.data s else capturePayload b.data s

/-- The event `CmdBeat(d, l)`, `Exec` fused to it when l = 1 (R25, R54, R55; log 8). -/
def acceptBeat (b : Beat) (s : State) : Host.Outcome State Fault Refusal :=
  if b.last then execFrame (capture b s) else .next { capture b s with phase := .collect }

/-- The event `RspBeat` (R60). -/
def emitBeat (s : State) : Host.Outcome State Fault Refusal :=
  match offeredBeat s with
  | some b => .next (sendBeat b s)
  | none   => .fault .rspIndexOutOfRange

/-- An edge at which both sides are ready: in RESPOND a response beat leaves; in IDLE and COLLECT the next command beat
is taken, and with nothing offered the block holds its state (R52, R57, R186, R201). -/
def transferEdge (s : State) : Host.Outcome State Fault Refusal :=
  match s.phase with
  | .respond => emitBeat s
  | .idle | .collect =>
    match s.cmd with
    | []        => .next s
    | b :: rest => acceptBeat b { s with cmd := rest }

/-- One edge of the given kind (R52, R195, R205). -/
def edge (t : Turn) (s : State) : Host.Outcome State Fault Refusal :=
  match t with
  | .transfer => transferEdge s
  | .idle     => .next s
  | .reset    => .next (resetEdge s)

/-- The next edge of the schedule; after the last entry every edge is a transfer edge (log 7). -/
def clockEdge (s : State) : Host.Outcome State Fault Refusal :=
  match s.turns with
  | []      => edge .transfer s
  | t :: ts => edge t { s with turns := ts }

/-- How many payload beats the frame of header `h` takes; 32 for an illegal header, where the number changes nothing but
the echoed LEN. -/
def frameLength (h : Word) : BitVec 16 :=
  match decode h with
  | .legal i   => operandCount i
  | .illegal _ => 32

/-- The machine with a frame of header `h` all but completely received: HDR holds `h`, SB holds the payload (what it
already held), and the last payload beat is the next one offered, at a transfer edge. The very next step takes it and
runs `Exec` (log 13). -/
def loadFrame (h : Word) (s : State) : State :=
  let n := frameLength h - 1
  { s with
    phase := .collect
    hdr := h
    len := n
    cmd := { data := s.sb.toList.getD n.toNat 0, last := true } :: s.cmd
    turns := .transfer :: s.turns }

end Sys2Proof.Machine
end

