-- ==== Sys2Proof/Machine/Step.lean ====
section
/-! DEFINITION. One step of the machine is one rising edge of `clk` (R9, R52). -/

namespace Sys2Proof.Machine

/-- One step. -/
def step (s : State) : Host.Outcome State Fault Refusal := clockEdge s

/-- `s` with the command whose header word is `w` (its low `nbits` bits, the rest zero) ready to run at the very next
step. The block fetches nothing (R24): commands arrive as frames from outside, and this stands for the arrival of all
of the frame but its last beat (log 13). -/
def State.withFetchWord (s : State) (nbits w : Nat) : State := loadFrame (BitVec.ofNat 64 (w % 2 ^ nbits)) s

end Sys2Proof.Machine
end

