-- ==== Sys2Proof/Safety.lean ====
section
/-! DEFINITION. The terms claims are made in: events, runs, what a safe state is, and the block as a function of one
frame (R25, R78 to R81, R209). -/

namespace Sys2Proof.Machine

/-- What can happen at an edge (R9, R195). -/
inductive Event where
  | cmdBeat (b : Beat)
  | rspBeat (b : Beat)
  | resetEdge
deriving DecidableEq, Repr

/-- The kind of the next edge (log 7). -/
def nextTurn (s : State) : Turn := s.turns.headD .transfer

/-- The event of the next edge, none where nothing is transferred (R25, R52, R57). -/
def nextEvent (s : State) : Option Event :=
  match nextTurn s with
  | .reset => some .resetEdge
  | .idle  => none
  | .transfer =>
    match s.phase with
    | .respond => (offeredBeat s).map .rspBeat
    | .idle | .collect => s.cmd.head?.map .cmdBeat

/-- `n` steps; a run is safe as long as it answers a next state. -/
def runFor : Nat → State → Host.Outcome State Fault Refusal
  | 0, s => .next s
  | n + 1, s =>
    match step s with
    | .next s'   => runFor n s'
    | .fault r   => .fault r
    | .refused r => .refused r

/-- The status words that the block can produce (R78 to R81, R170, R179, U11). -/
abbrev LegalStatus (w : Word) : Prop :=
  statusUpper w = 0 ∧
  ((statusField w = 0x00 ∧ (statusOpc w = 0x01 ∨ statusOpc w = 0x02) ∧ statusLen w = 32 ∧
      statusMatch w = 0 ∧ statusReason w = 0) ∨
   (statusField w = 0x00 ∧ statusOpc w = 0x03 ∧ statusLen w = 2 ∧
      statusReason w ≤ 4 ∧ (statusMatch w = 1 ↔ statusReason w = 0)) ∨
   (statusField w = 0x01 ∧ (statusOpc w = 0x01 ∨ statusOpc w = 0x02) ∧ statusLen w ≠ 32 ∧
      statusMatch w = 0 ∧ statusReason w = 0) ∨
   (statusField w = 0x02 ∧ statusMatch w = 0 ∧ statusReason w = 0) ∨
   (statusField w = 0x03 ∧ statusOpc w = 0x03 ∧ statusLen w ≠ 2 ∧
      statusMatch w = 0 ∧ statusReason w = 0))

/-- In RESPOND the status latch is one the block can produce, echoes the header's low byte and the payload count, and
a beat of the response is still to be sent; `P_FRAC` is at least 1 (R5, R29, R31, R59, R78, R147). -/
abbrev StatusInv (s : State) : Prop :=
  1 ≤ s.cfg.pFrac ∧
  (s.phase = .respond →
    LegalStatus s.rstat ∧ statusOpc s.rstat = headerOpc s.hdr ∧ statusLen s.rstat = s.len ∧
      s.ridx < responseBeats s.rstat)

/-- The Coefficient Block that belongs to a transform header (R58). -/
def transformOf (h : Word) (x : Vector Word 32) : Vector Word 32 :=
  if headerOpc h = 0x01 then dctDirect x else dctFast x

/-- The status beat that belongs to a header, a payload count and the first two payload words (R58, R209). -/
def statusOf (cfg : Config) (h : Word) (len : BitVec 16) (a b : Word) : Word :=
  if !legalHeader h then statusWord 0x02 (headerOpc h) len 0 0
  else if headerOpc h = 0x03 then
    if len = 2 then
      let v := cmpSig a b (headerS h).toNat cfg.pFrac
      statusWord 0x00 0x03 2 v.matchBit v.reason
    else statusWord 0x03 0x03 len 0 0
  else if len = 32 then statusWord 0x00 (headerOpc h) 32 0 0
  else statusWord 0x01 (headerOpc h) len 0 0

/-- In RESPOND the status latch is that of the frame just collected, and where 32 data beats follow, XB holds the
transform of SB that the header names (R22, R58, R59). -/
abbrev ResponseInv (s : State) : Prop :=
  s.phase = .respond →
    s.rstat = statusOf s.cfg s.hdr s.len s.sb[0] s.sb[1] ∧ s.ridx < responseBeats s.rstat ∧
      (responseBeats s.rstat = 33 → s.xb = transformOf s.hdr s.sb)

/-- `Resp(h, p[0..m-1])`: the words of the response to one frame, a function of the frame and `P_FRAC` alone (R209). -/
def resp (cfg : Config) (f : Frame) : List Word :=
  let opc := f.header.extractLsb' 0 8
  let sig := f.header.extractLsb' 8 8
  let len := BitVec.ofNat 16 (min f.payload.length 0xFFFF)
  let block := Vector.ofFn fun i : Fin 32 => f.payload.getD i 0
  if f.header.extractLsb' 16 48 ≠ 0 ∨ ¬ (opc = 0x01 ∨ opc = 0x02 ∨ opc = 0x03) ∨
      ((opc = 0x01 ∨ opc = 0x02) ∧ sig ≠ 0) then
    [statusWord 0x02 opc len 0 0]
  else if opc = 0x01 ∨ opc = 0x02 then
    if f.payload.length ≠ 32 then [statusWord 0x01 opc len 0 0]
    else statusWord 0x00 opc 32 0 0 :: (if opc = 0x01 then dctDirect block else dctFast block).toList
  else if f.payload.length ≠ 2 then [statusWord 0x03 0x03 len 0 0]
  else
    let v := cmpSig (f.payload.getD 0 0) (f.payload.getD 1 0) sig.toNat cfg.pFrac
    [statusWord 0x00 0x03 2 v.matchBit v.reason]

/-- The number of beats that a frame and its response move (R59, R70, R81). -/
def exchangeBeats (cfg : Config) (f : Frame) : Nat := (frameBeats f).length + (resp cfg f).length

/-- The 32-point transform in recursive form: the transforms of the even and the odd elements, combined by the
butterflies of one stage (R129, R130). -/
def fftRecursive : Nat → List Word → List Cplx
  | 0, v => v.map fun w => ⟨w, 0⟩
  | l + 1, v =>
    let half := 2 ^ l
    let evens := fftRecursive l ((List.range half).map fun i => v.getD (2 * i) 0)
    let odds := fftRecursive l ((List.range half).map fun i => v.getD (2 * i + 1) 0)
    let pairs := (List.range half).map fun j =>
      bflyPair (j * (32 / 2 ^ (l + 1))) (cplxAt evens j) (cplxAt odds j)
    pairs.map Prod.fst ++ pairs.map Prod.snd

/-- The number a rendering writes when its point is left out. -/
def glyphsValue (g : List Glyph) : Nat :=
  g.foldl (fun n c => match c with | .digit d => 10 * n + d | .point => n) 0

end Sys2Proof.Machine
end

