-- ==== Sys2Proof/Certificates/Slice0/Obligations.lean ====
section
/-! DEFINITION. The statements about the model. A name ends a sentence about the spec's rule it cites; OBLIGATIONS.json
says which rule. -/

open Sys2Proof Sys2Proof.Machine

/-! Encoding -/

/-- Every instruction's header decodes to it, and a legal header is the encoding of what it decodes to (R71, R76, R84). -/
def Obligations.DecodeEncodeAgree : Prop :=
  (∀ i : Instr, decode (encode i) = .legal i) ∧
  (∀ (h : Word) (i : Instr), decode h = .legal i → encode i = h)

/-- The decoder is the opcode table's mask and match, and everything else is illegal (R84). -/
def Obligations.DecodeIsTheTablesMaskAndMatch : Prop :=
  ∀ h : Word,
    (decode h = .legal .dctDirect ↔ h &&& 0xFFFFFFFFFFFFFFFF = 0x0000000000000001) ∧
    (decode h = .legal .dctFast ↔ h &&& 0xFFFFFFFFFFFFFFFF = 0x0000000000000002) ∧
    (∀ s : BitVec 8, decode h = .legal (.cmpSig s) ↔
      (h &&& 0xFFFFFFFFFFFF00FF = 0x0000000000000003 ∧ s = h.extractLsb' 8 8)) ∧
    ((∃ why, decode h = .illegal why) ↔
      (h ≠ 0x0000000000000001 ∧ h ≠ 0x0000000000000002 ∧ h &&& 0xFFFFFFFFFFFF00FF ≠ 0x0000000000000003))

/-- A header is decoded exactly when it is legal, and each cause of illegality has its name (R76). -/
def Obligations.IllegalHeadersAreRejectedByCause : Prop :=
  ∀ h : Word,
    ((∃ i, decode h = .legal i) ↔ legalHeader h = true) ∧
    (decode h = .illegal .reservedBits ↔ headerReservedClear h = false) ∧
    (decode h = .illegal .unknownOpcode ↔ headerReservedClear h = true ∧ headerOpcodeKnown h = false) ∧
    (decode h = .illegal .sOnTransform ↔
      headerReservedClear h = true ∧ headerOpcodeKnown h = true ∧ headerSZeroOnTransform h = false)

/-- The worked header words and status words of R85. -/
def Obligations.WorkedHeadersAndStatusWords : Prop :=
  decode 0x0000000000000001 = .legal .dctDirect ∧
  decode 0x0000000000000002 = .legal .dctFast ∧
  decode 0x0000000000000603 = .legal (.cmpSig 6) ∧
  decode 0x0000000000000003 = .legal (.cmpSig 0) ∧
  decode 0x000000000000FF03 = .legal (.cmpSig 255) ∧
  decode 0x0000000000000601 = .illegal .sOnTransform ∧
  decode 0x0000000000010001 = .illegal .reservedBits ∧
  statusWord 0x00 0x01 32 0 0 = 0x0000000000200100 ∧
  statusWord 0x00 0x02 32 0 0 = 0x0000000000200200 ∧
  statusWord (CmdError.code .invalidLength) 0x01 31 0 0 = 0x00000000001F0101 ∧
  statusWord (CmdError.code .invalidLength) 0x02 33 0 0 = 0x0000000000210201 ∧
  statusWord (CmdError.code .invalidLength) 0x01 0 0 0 = 0x0000000000000101 ∧
  statusWord 0x00 0x03 2 (Verdict.matchBit .agree) (Verdict.reason .agree) = 0x0000000100020300 ∧
  statusWord 0x00 0x03 2 (Verdict.matchBit .signsDiffer) (Verdict.reason .signsDiffer) = 0x0000000200020300 ∧
  statusWord 0x00 0x03 2 (Verdict.matchBit .tooShort) (Verdict.reason .tooShort) = 0x0000000400020300 ∧
  statusWord 0x00 0x03 2 (Verdict.matchBit .digitsDiffer) (Verdict.reason .digitsDiffer) = 0x0000000600020300 ∧
  statusWord 0x00 0x03 2 (Verdict.matchBit .nonFinite) (Verdict.reason .nonFinite) = 0x0000000800020300 ∧
  statusWord (CmdError.code .badOperandCount) 0x03 3 0 0 = 0x0000000000030303 ∧
  statusWord (CmdError.code .illegalCommand) 0xFF 5 0 0 = 0x000000000005FF02

/-- `StatusWord` is the sum of R78, and its fields read back. -/
def Obligations.StatusWordIsTheSumOfItsFields : Prop :=
  ∀ (st opc : BitVec 8) (len : BitVec 16) (m : BitVec 1) (r : BitVec 3),
    (statusWord st opc len m r).toNat =
      st.toNat + opc.toNat * 2 ^ 8 + len.toNat * 2 ^ 16 + m.toNat * 2 ^ 32 + r.toNat * 2 ^ 33 ∧
    statusField (statusWord st opc len m r) = st ∧ statusOpc (statusWord st opc len m r) = opc ∧
    statusLen (statusWord st opc len m r) = len ∧ statusMatch (statusWord st opc len m r) = m ∧
    statusReason (statusWord st opc len m r) = r ∧ statusUpper (statusWord st opc len m r) = 0

/-! The three commands at `Exec` -/

/-- `DCT.DIRECT` with 32 payload beats completes: every XB[k] is the left to right chain of R111, the status is OK, and
nothing else changes (R58, R111). -/
def Obligations.DctDirectCompletesWithTheChain : Prop :=
  ∀ s : State, s.len = 32 →
    ∃ x : Vector Word 32,
      exec .dctDirect s = .next { s with
        xb := x, rstat := statusWord 0x00 (headerOpc s.hdr) 32 0 0, ridx := 0, phase := .respond } ∧
      ∀ k : Fin 32, x[k] =
        (List.finRange 32).foldl
          (fun acc n => fadd acc (fmul s.sb[n] (cosang ((2 * n.val + 1) * k.val)))) 0x0000000000000000

/-- `DCT.FAST` with 32 payload beats completes: XB is fold, FFT and post-twiddle, the FFT taken in its recursive form;
the status is OK, and nothing else changes (R58, R126 to R131). -/
def Obligations.DctFastCompletesWithTheRecursiveFft : Prop :=
  ∀ s : State, s.len = 32 →
    ∃ x : Vector Word 32,
      exec .dctFast s = .next { s with
        xb := x, rstat := statusWord 0x00 (headerOpc s.hdr) 32 0 0, ridx := 0, phase := .respond } ∧
      ∀ k : Fin 32, x[k] =
        fadd (fmul (cosq k) (cplxAt (fftRecursive 5 (fold s.sb)) k).re)
          (fmul (cosq (32 - k)) (cplxAt (fftRecursive 5 (fold s.sb)) k).im)

/-- `CMP.SIG S` with 2 payload beats completes: MATCH and REASON are those of the comparison of SB[0] and SB[1], the
status is OK, and nothing else changes (R58, R158, R159). Which verdict it is, `NonFiniteAndSignTestsComeFirst` says. -/
def Obligations.CmpSigCompletesWithTheVerdict : Prop :=
  ∀ (s : State) (sig : BitVec 8), s.len = 2 →
    exec (.cmpSig sig) s = .next { s with
      rstat := statusWord 0x00 (headerOpc s.hdr) 2
        (cmpSig s.sb[0] s.sb[1] sig.toNat s.cfg.pFrac).matchBit
        (cmpSig s.sb[0] s.sb[1] sig.toNat s.cfg.pFrac).reason,
      ridx := 0, phase := .respond }

/-- A wrong payload length raises INVALID_LENGTH on a transform and BAD_OPERAND_COUNT on `CMP.SIG`; nothing is computed
and XB is not written (R171, R173). -/
def Obligations.WrongLengthRaisesAndWritesNoResult : Prop :=
  ∀ s : State,
    (s.len ≠ 32 →
      exec .dctDirect s = .next { s with
        rstat := statusWord 0x01 (headerOpc s.hdr) s.len 0 0, ridx := 0, phase := .respond } ∧
      exec .dctFast s = .next { s with
        rstat := statusWord 0x01 (headerOpc s.hdr) s.len 0 0, ridx := 0, phase := .respond }) ∧
    (∀ sig : BitVec 8, s.len ≠ 2 →
      exec (.cmpSig sig) s = .next { s with
        rstat := statusWord 0x03 (headerOpc s.hdr) s.len 0 0, ridx := 0, phase := .respond })

/-- The frame of the three commands: `Exec` writes RSTAT, RIDX, PHASE, and XB only for a transform with 32 payload beats;
everything else is unchanged (R22, R26, R40, R41). -/
def Obligations.ExecLeavesTheRestUnchanged : Prop :=
  ∀ (i : Instr) (s t : State), exec i s = .next t →
    t.hdr = s.hdr ∧ t.len = s.len ∧ t.sb = s.sb ∧ t.cfg = s.cfg ∧ t.cmd = s.cmd ∧ t.rsp = s.rsp ∧
    t.turns = s.turns ∧ t.draws = s.draws ∧
    (((∃ sig, i = .cmpSig sig) ∨ s.len ≠ 32) → t.xb = s.xb)

/-- Taking an error: RSTAT, RIDX, PHASE in the one way of R176, nothing else. -/
def Obligations.RaiseWritesStatusIndexAndPhaseOnly : Prop :=
  ∀ (e : CmdError) (s : State),
    raise e s = { s with
      rstat := statusWord e.code (s.hdr.extractLsb' 0 8) s.len 0 0, ridx := 0, phase := .respond } ∧
    CmdError.code .invalidLength = 0x01 ∧ CmdError.code .illegalCommand = 0x02 ∧
    CmdError.code .badOperandCount = 0x03

/-- The codes of R80: MATCH is 1 exactly when REASON is 0, and REASON is at most 4. -/
def Obligations.MatchExactlyWhenReasonZero : Prop :=
  ∀ v : Verdict, (v.matchBit = 1 ↔ v.reason = 0) ∧ v.reason ≤ 4 ∧
    (v.reason = 0 ↔ v = .agree) ∧ (v.reason = 1 ↔ v = .signsDiffer) ∧ (v.reason = 2 ↔ v = .tooShort) ∧
    (v.reason = 3 ↔ v = .digitsDiffer) ∧ (v.reason = 4 ↔ v = .nonFinite)

/-! Steps -/

/-- The step that takes the last beat of a frame runs the decoded header's instruction on the captured state. -/
def Obligations.LastBeatRunsTheDecodedInstruction : Prop :=
  ∀ (s : State) (b : Beat) (rest : List Beat) (i : Instr),
    nextTurn s = .transfer → s.cmd = b :: rest → b.last = true →
    (s.phase = .idle → decode b.data = .legal i →
      step s = exec i { s with hdr := b.data, len := 0, cmd := rest, turns := s.turns.tail }) ∧
    (s.phase = .collect → decode s.hdr = .legal i →
      step s = exec i { s with
        sb := storeSample b.data s.len s.sb, len := nextLen s.len, cmd := rest, turns := s.turns.tail })

/-- The step that takes the last beat of a frame with an illegal header raises ILLEGAL_COMMAND, whatever the payload and
its length (R172, R179). -/
def Obligations.IllegalHeaderRaisesIllegalCommand : Prop :=
  ∀ (s : State) (b : Beat) (rest : List Beat),
    nextTurn s = .transfer → s.cmd = b :: rest → b.last = true →
    (s.phase = .idle → legalHeader b.data = false →
      step s = .next { s with
        hdr := b.data, len := 0, cmd := rest, turns := s.turns.tail,
        rstat := statusWord 0x02 (headerOpc b.data) 0 0 0, ridx := 0, phase := .respond }) ∧
    (s.phase = .collect → legalHeader s.hdr = false →
      step s = .next { s with
        sb := storeSample b.data s.len s.sb, len := nextLen s.len, cmd := rest, turns := s.turns.tail,
        rstat := statusWord 0x02 (headerOpc s.hdr) (nextLen s.len) 0 0, ridx := 0, phase := .respond })

/-- A header beat: HDR takes it, LEN is 0, and either the frame goes on or `Exec` follows at once (R54). -/
def Obligations.HeaderBeatIsLatched : Prop :=
  ∀ (s : State) (d : Word) (l : Bool) (rest : List Beat),
    s.phase = .idle → nextTurn s = .transfer → s.cmd = { data := d, last := l } :: rest →
    (l = false → step s = .next { s with
      hdr := d, len := 0, phase := .collect, cmd := rest, turns := s.turns.tail }) ∧
    (l = true → step s = execFrame { s with hdr := d, len := 0, cmd := rest, turns := s.turns.tail })

/-- A payload beat: stored at SB[LEN] if LEN < 32, LEN counted up to 0xFFFF, and either the frame goes on or `Exec`
follows at once (R55). -/
def Obligations.PayloadBeatIsStoredAndCounted : Prop :=
  ∀ (s : State) (d : Word) (l : Bool) (rest : List Beat),
    s.phase = .collect → nextTurn s = .transfer → s.cmd = { data := d, last := l } :: rest →
    ∃ (sb : Vector Word 32) (len : BitVec 16),
      (∀ i : Fin 32, sb[i] = if i.val = s.len.toNat then d else s.sb[i]) ∧
      len.toNat = min (s.len.toNat + 1) 0xFFFF ∧
      (l = false → step s = .next { s with
        sb := sb, len := len, cmd := rest, turns := s.turns.tail }) ∧
      (l = true → step s = execFrame { s with sb := sb, len := len, cmd := rest, turns := s.turns.tail })

/-- A response beat: the word and last-flag of R60, RIDX counted up, IDLE after the last. -/
def Obligations.ResponseBeatIsSent : Prop :=
  ∀ s : State, s.phase = .respond → nextTurn s = .transfer → s.ridx ≤ 32 →
    ∃ d : Word,
      (s.ridx = 0 → d = s.rstat) ∧
      (∀ j : Fin 32, s.ridx = j.val + 1 → d = s.xb[j]) ∧
      step s = .next { s with
        ridx := s.ridx + 1
        rsp := s.rsp ++ [{ data := d, last := decide (s.ridx + 1 = responseBeats s.rstat) }]
        phase := if s.ridx + 1 = responseBeats s.rstat then .idle else .respond
        turns := s.turns.tail }

/-- The one stop of the model, which no run reaches: in RESPOND with RIDX > 32 the response event would read an element
that XB[0..31] does not have, and the step faults by name (log 11). -/
def Obligations.ResponseBeyondTheBufferFaults : Prop :=
  ∀ s : State, s.phase = .respond → nextTurn s = .transfer → 32 < s.ridx →
    step s = .fault .rspIndexOutOfRange

/-- NB is 33 exactly for an OK status of a transform, else 1 (R59). -/
def Obligations.ResponseHas33BeatsExactlyForAGoodTransform : Prop :=
  ∀ w : Word,
    (responseBeats w = 33 ↔ w.extractLsb' 0 8 = 0x00#8 ∧ (w.extractLsb' 8 8 = 0x01#8 ∨ w.extractLsb' 8 8 = 0x02#8)) ∧
    (responseBeats w = 33 ∨ responseBeats w = 1)

/-- An edge with rst = 1, in any phase: PHASE, LEN, RIDX take their reset values, no beat is transferred, P_FRAC stays
(R195, R196). -/
def Obligations.ResetEdgeAbandonsTheCommand : Prop :=
  ∀ s : State, nextTurn s = .reset →
    ∃ t : State, step s = .next t ∧ t.phase = .idle ∧ t.len = 0 ∧ t.ridx = 0 ∧
      t.cmd = s.cmd ∧ t.rsp = s.rsp ∧ t.cfg = s.cfg ∧ t.turns = s.turns.tail

/-- An edge at which a side is not ready, or at which the host offers nothing, changes no state of the block (R52, R186,
R201). -/
def Obligations.EdgeWithoutTransferChangesNothing : Prop :=
  ∀ s : State,
    (nextTurn s = .idle ∨ (nextTurn s = .transfer ∧ s.phase ≠ .respond ∧ s.cmd = [])) →
    step s = .next { s with turns := s.turns.tail }

/-- The reset state (R37): IDLE, no beat counted, no beat sent, the default build, nothing exchanged yet. The empty
channels and schedule are the model's choice (log 5, log 6, log 7). -/
def Obligations.ResetStateIsIdleAndEmpty : Prop :=
  State.reset.phase = .idle ∧ State.reset.len = 0 ∧ State.reset.ridx = 0 ∧ State.reset.cfg.pFrac = 50 ∧
  State.reset.cmd = [] ∧ State.reset.rsp = [] ∧ State.reset.turns = []

/-! Rules of the whole machine -/

/-- PHASE moves only as the table of R25 says, a reset edge apart (R195). -/
def Obligations.PhaseMovesOnlyAsTheTable : Prop :=
  ∀ s t : State, step s = .next t →
    match nextEvent s with
    | some (.cmdBeat b) =>
        (s.phase = .idle ∨ s.phase = .collect) ∧ t.phase = (if b.last then .respond else .collect)
    | some (.rspBeat b) => s.phase = .respond ∧ t.phase = (if b.last then .idle else .respond)
    | some .resetEdge   => t.phase = .idle
    | none              => t.phase = s.phase

/-- One command in flight, beats in order: a step takes at most the first offered beat, and only in IDLE or COLLECT, and
sends at most one beat, and only in RESPOND (R57, R63). -/
def Obligations.ChannelsMoveOneBeatInOrder : Prop :=
  ∀ s t : State, step s = .next t →
    (t.cmd = s.cmd ∨ (∃ b, s.cmd = b :: t.cmd) ∧ s.phase ≠ .respond ∧ nextTurn s = .transfer) ∧
    (t.rsp = s.rsp ∨ (∃ b, t.rsp = s.rsp ++ [b]) ∧ s.phase = .respond ∧ nextTurn s = .transfer) ∧
    (t.cmd = s.cmd ∨ t.rsp = s.rsp)

/-- No step but a payload beat writes SB, and it writes SB[LEN] alone; a reset edge leaves SB open (R40, R56, R196). -/
def Obligations.OnlyPayloadBeatsWriteSamples : Prop :=
  ∀ s t : State, step s = .next t → nextTurn s ≠ .reset →
    (t.sb ≠ s.sb → s.phase = .collect ∧ s.len.toNat < 32 ∧ ∃ b, nextEvent s = some (.cmdBeat b)) ∧
    (∀ i : Fin 32, i.val ≠ s.len.toNat → t.sb[i] = s.sb[i])

/-- XB is written by the `Exec` of a successful transform and by nothing else; a reset edge leaves it open (R22, R41). -/
def Obligations.OnlySuccessfulTransformsWriteCoefficients : Prop :=
  ∀ s t : State, step s = .next t → nextTurn s ≠ .reset → t.xb ≠ s.xb →
    s.phase ≠ .respond ∧ t.phase = .respond ∧ responseBeats t.rstat = 33 ∧ t.len = 32 ∧
    t.xb = transformOf t.hdr t.sb

/-- HDR is written by the first beat of a frame and by nothing else; a reset edge leaves it open (R26). -/
def Obligations.HeaderLatchedByFirstBeatOnly : Prop :=
  ∀ s t : State, step s = .next t → nextTurn s ≠ .reset →
    (s.phase ≠ .idle → t.hdr = s.hdr) ∧
    (∀ b, s.phase = .idle → nextEvent s = some (.cmdBeat b) → t.hdr = b.data) ∧
    (nextEvent s = none → t.hdr = s.hdr)

/-- LEN never wraps: within a frame it is unchanged or counted up by one, and at 0xFFFF it stays (R27, R101). -/
def Obligations.PayloadCountSaturates : Prop :=
  ∀ s t : State, step s = .next t → nextTurn s ≠ .reset → s.phase ≠ .idle →
    (t.len = s.len ∨ t.len.toNat = s.len.toNat + 1) ∧ s.len.toNat ≤ t.len.toNat ∧
    (∀ b, nextEvent s = some (.cmdBeat b) → t.len.toNat = min (s.len.toNat + 1) 0xFFFF)

/-- No step changes P_FRAC (R31, R36, R196, R210). -/
def Obligations.BuildParameterNeverChanges : Prop := ∀ s t : State, step s = .next t → t.cfg = s.cfg

/-- At reset the two invariants hold. -/
def Obligations.BothInvariantsHoldAtReset : Prop := StatusInv State.reset ∧ ResponseInv State.reset

/-- Every step from a state with the status invariant answers a next state with it: the block never stops, only legal
status words are ever produced, and RESPOND always has a beat to send (R29, R78 to R81, R170, R180, U11). -/
def Obligations.StatusInvIsKeptAndNoStepStops : Prop :=
  ∀ s : State, StatusInv s → ∃ t : State, step s = .next t ∧ StatusInv t

/-- Every step keeps: in RESPOND the status latch and XB are those of the frame held in HDR, LEN and SB (R22, R28, R58). -/
def Obligations.ResponseInvIsKeptByEveryStep : Prop :=
  ∀ s t : State, ResponseInv s → step s = .next t → ResponseInv t

/-- The block as a function: from IDLE, with any frames on the command channel and any schedule that has no reset and
enough transfer edges, idle edges anywhere, the response frames are `Resp` of the frames, in order (R209, R63, R205). -/
def Obligations.RunAnswersEveryFrameWithResp : Prop :=
  ∀ (s : State) (frames : List Frame),
    s.phase = .idle → s.cmd = frames.flatMap frameBeats → Turn.reset ∉ s.turns →
    s.turns.count .transfer = (frames.map (exchangeBeats s.cfg)).sum →
    ∃ t : State, runFor s.turns.length s = .next t ∧ t.phase = .idle ∧ t.cmd = [] ∧ t.turns = [] ∧
      t.rsp = s.rsp ++ frames.flatMap fun f => beatsOf (resp s.cfg f)

/-- At IDLE nothing left in HDR, LEN, SB, XB, RSTAT, RIDX can ever be seen: two idle blocks of one build with the same
host show the same responses for ever, resets included (R38, R39, R180). -/
def Obligations.IdleBlocksAreIndistinguishable : Prop :=
  ∀ (n : Nat) (s₁ s₂ t₁ : State),
    s₁.phase = .idle → s₂.phase = .idle → s₁.cfg = s₂.cfg → s₁.cmd = s₂.cmd → s₁.turns = s₂.turns →
    s₁.rsp = s₂.rsp → runFor n s₁ = .next t₁ →
    ∃ t₂ : State, runFor n s₂ = .next t₂ ∧ t₁.rsp = t₂.rsp ∧ t₁.cmd = t₂.cmd ∧ t₁.phase = t₂.phase

/-! Arithmetic -/

/-- `round64` is round to nearest, ties to even, with the overflow threshold 2^1024 - 2^970 (R92). The real is
`(-1)^s * n * 2^-(1074+k)`; both sides of a comparison are multiplied by 2^(1074+k). -/
def Obligations.RoundingIsNearestTiesToEven : Prop :=
  ∀ (s : Bool) (n k : Nat),
    round64 s 0 k = zeroOf s ∧
    ((2 ^ 1024 - 2 ^ 970) * 2 ^ (1074 + k) ≤ n → round64 s n k = infOf s) ∧
    (2 * n ≤ 2 ^ k → round64 s n k = zeroOf s) ∧
    (0 < n → n < (2 ^ 1024 - 2 ^ 970) * 2 ^ (1074 + k) →
      isFinite (round64 s n k) = true ∧ signBit (round64 s n k) = s ∧
      ∀ w : Word, isFinite w = true →
        |(magnitude (round64 s n k) : Int) * 2 ^ k - n| ≤ |(magnitude w : Int) * 2 ^ k - n| ∧
        (|(magnitude (round64 s n k) : Int) * 2 ^ k - n| = |(magnitude w : Int) * 2 ^ k - n| →
          magnitude w ≠ magnitude (round64 s n k) → fracField (round64 s n k) % 2 = 0))

/-- Each operation on finite operands rounds its exact result once: where that result is not zero it is `round64` of its
sign and magnitude, which `RoundingIsNearestTiesToEven` describes, and where the operation's result is finite no finite
value is nearer (R92, R93, R96). The exact results of fadd and fsub are in units of 2^-1074, of fmul in 2^-2148. -/
def Obligations.FiniteSumsAndProductsAreNearest : Prop :=
  ∀ a b : Word, isFinite a = true → isFinite b = true →
    (fixed a + fixed b ≠ 0 →
      fadd a b = round64 (decide (fixed a + fixed b < 0)) (fixed a + fixed b).natAbs 0) ∧
    (fixed a - fixed b ≠ 0 →
      fsub a b = round64 (decide (fixed a - fixed b < 0)) (fixed a - fixed b).natAbs 0) ∧
    (fixed a * fixed b ≠ 0 →
      fmul a b = round64 (decide (fixed a * fixed b < 0)) (fixed a * fixed b).natAbs 1074) ∧
    ∀ w : Word, isFinite w = true →
      (isFinite (fadd a b) = true →
        |fixed (fadd a b) - (fixed a + fixed b)| ≤ |fixed w - (fixed a + fixed b)|) ∧
      (isFinite (fsub a b) = true →
        |fixed (fsub a b) - (fixed a - fixed b)| ≤ |fixed w - (fixed a - fixed b)|) ∧
      (isFinite (fmul a b) = true →
        |fixed (fmul a b) * 2 ^ 1074 - fixed a * fixed b| ≤ |fixed w * 2 ^ 1074 - fixed a * fixed b|)

/-- The rows of R93's case tables that hold an infinity or a zero, and the consequences that R93 draws from the tables.
The rows with a NaN are those of `EveryNaNResultIsCanonical`, the rounding rows those of
`FiniteSumsAndProductsAreNearest`. Commuting brings each row to the other order of the operands. -/
def Obligations.ArithmeticConsequencesOfTheCaseTables : Prop :=
  (∀ a b : Word, fadd a b = fadd b a ∧ fmul a b = fmul b a) ∧
  (∀ a b : Word, isInf a = true →
    (isZero b = true → fmul a b = 0x7FF8000000000000) ∧
    (isNaN b = false → isZero b = false → fmul a b = infOf (signBit a != signBit b)) ∧
    (isFinite b = true → fadd a b = a ∧ fsub a b = a ∧ fsub b a = neg a) ∧
    (isInf b = true → signBit a ≠ signBit b →
      fadd a b = 0x7FF8000000000000 ∧ fsub a b = a ∧ fsub b a = b) ∧
    (isInf b = true → signBit a = signBit b →
      fadd a b = a ∧ fsub a b = 0x7FF8000000000000)) ∧
  (∀ a b : Word, isNaN b = false → fsub a b = fadd a (neg b)) ∧
  (∀ a b : Word, isZero a = true → isFinite b = true → fmul a b = zeroOf (signBit a != signBit b)) ∧
  (fadd (zeroOf false) (zeroOf true) = zeroOf false ∧ fadd (zeroOf true) (zeroOf false) = zeroOf false ∧
    fadd (zeroOf true) (zeroOf true) = zeroOf true ∧ fadd (zeroOf false) (zeroOf false) = zeroOf false) ∧
  (∀ x : Word, isFinite x = true → fadd x (neg x) = zeroOf false) ∧
  (∀ a : Word, isNaN a = false →
    fmul a 0x3FF0000000000000 = a ∧ fmul a 0xBFF0000000000000 = neg a ∧
    (a ≠ zeroOf true → fadd (zeroOf false) a = a)) ∧
  (∀ a b : Word, isNaN (fmul a b) = false → fmul (neg a) b = neg (fmul a b))

/-- Every NaN result is the canonical NaN, and a NaN operand gives it (R94). -/
def Obligations.EveryNaNResultIsCanonical : Prop :=
  ∀ a b : Word,
    (isNaN (fadd a b) = true → fadd a b = 0x7FF8000000000000) ∧
    (isNaN (fsub a b) = true → fsub a b = 0x7FF8000000000000) ∧
    (isNaN (fmul a b) = true → fmul a b = 0x7FF8000000000000) ∧
    (isNaN a = true ∨ isNaN b = true →
      fadd a b = 0x7FF8000000000000 ∧ fsub a b = 0x7FF8000000000000 ∧ fmul a b = 0x7FF8000000000000)

/-- No flush to zero: the sum and difference of two subnormals or zeros are exact (R95). -/
def Obligations.SubnormalSumsAreExact : Prop :=
  ∀ a b : Word, expField a = 0 → expField b = 0 →
    isFinite (fadd a b) = true ∧ fixed (fadd a b) = fixed a + fixed b ∧
    isFinite (fsub a b) = true ∧ fixed (fsub a b) = fixed a - fixed b

/-- Each ROM word is a binary64 nearest to the real cosine, and the two exact entries are exact (R97). Both sides are
multiplied by 2^1074. -/
def Obligations.CosineRomIsCorrectlyRounded : Prop :=
  cosq 0 = 0x3FF0000000000000 ∧ cosq 32 = 0x0000000000000000 ∧
  ∀ i : Nat, i ≤ 32 → isFinite (cosq i) = true ∧
    ∀ w : Word, isFinite w = true →
      |((fixed (cosq i) : Int) : Real) - 2 ^ 1074 * Real.cos (Real.pi * i / 64)| ≤
        |((fixed w : Int) : Real) - 2 ^ 1074 * Real.cos (Real.pi * i / 64)|

/-- The folding loses nothing: for every j the constant is a binary64 nearest to cos(π·j/64) (R99). -/
def Obligations.FoldedCosineIsCorrectlyRounded : Prop :=
  ∀ j : Nat, isFinite (cosang j) = true ∧
    ∀ w : Word, isFinite w = true →
      |((fixed (cosang j) : Int) : Real) - 2 ^ 1074 * Real.cos (Real.pi * j / 64)| ≤
        |((fixed w : Int) : Real) - 2 ^ 1074 * Real.cos (Real.pi * j / 64)|

/-- The table of twiddles and the sine read from the ROM (R100). -/
def Obligations.TwiddlesAreReadFromTheRom : Prop :=
  (List.range 16).map twiddleRe =
    [0x3FF0000000000000, 0x3FEF6297CFF75CB0, 0x3FED906BCF328D46, 0x3FEA9B66290EA1A3,
     0x3FE6A09E667F3BCD, 0x3FE1C73B39AE68C8, 0x3FD87DE2A6AEA963, 0x3FC8F8B83C69A60B,
     0x0000000000000000, 0xBFC8F8B83C69A60B, 0xBFD87DE2A6AEA963, 0xBFE1C73B39AE68C8,
     0xBFE6A09E667F3BCD, 0xBFEA9B66290EA1A3, 0xBFED906BCF328D46, 0xBFEF6297CFF75CB0] ∧
  (List.range 16).map twiddleIm =
    [0x0000000000000000, 0xBFC8F8B83C69A60B, 0xBFD87DE2A6AEA963, 0xBFE1C73B39AE68C8,
     0xBFE6A09E667F3BCD, 0xBFEA9B66290EA1A3, 0xBFED906BCF328D46, 0xBFEF6297CFF75CB0,
     0xBFF0000000000000, 0xBFEF6297CFF75CB0, 0xBFED906BCF328D46, 0xBFEA9B66290EA1A3,
     0xBFE6A09E667F3BCD, 0xBFE1C73B39AE68C8, 0xBFD87DE2A6AEA963, 0xBFC8F8B83C69A60B] ∧
  ∀ k : Nat, k ≤ 32 → sinq k = cosq (32 - k)

/-! The transforms -/

/-- A block of zeros of any signs gives +0 in every bin of the direct unit, and no block ever gives -0 (R115). -/
def Obligations.DirectUnitMapsZerosToZeroAndNeverGivesMinusZero : Prop :=
  ∀ (x : Vector Word 32) (k : Fin 32),
    ((∀ n : Fin 32, isZero x[n] = true) → (dctDirect x)[k] = 0x0000000000000000) ∧
    (dctDirect x)[k] ≠ 0x8000000000000000

/-- Bin 0 of the direct unit is the plain left to right rounded sum of the inputs; an impulse gives the rounded product
with one constant, a -0 product added to the accumulator's +0 giving +0 (R116; log 15). -/
def Obligations.DirectUnitOnImpulsesAndBinZero : Prop :=
  (∀ x : Vector Word 32, (dctDirect x)[0] = x.toList.foldl fadd 0x0000000000000000) ∧
  (∀ (a : Word) (m k : Fin 32),
    (dctDirect ((Vector.replicate 32 0x0000000000000000).set m a))[k] =
      fadd 0x0000000000000000 (fmul a (cosang ((2 * m.val + 1) * k.val))))

/-- A NaN anywhere in the block makes all 32 outputs of both units the canonical NaN (R114, R135). Of one infinite sample
R135 says the same for the fast unit, which the chain of R126 to R131 does not give at every position: log 15. -/
def Obligations.OneNaNMakesEveryBinCanonicalNaN : Prop :=
  ∀ (x : Vector Word 32) (m k : Fin 32), isNaN x[m] = true →
    (dctDirect x)[k] = 0x7FF8000000000000 ∧ (dctFast x)[k] = 0x7FF8000000000000

/-- One infinity among finite samples: if the sum of the terms before it is finite, the bin of the direct unit is the
infinity of the sign of the product (R114; log 15 for the premise). -/
def Obligations.DirectUnitOnOneInfinity : Prop :=
  ∀ (x : Vector Word 32) (m k : Fin 32), isInf x[m] = true →
    (∀ n : Fin 32, n ≠ m → isFinite x[n] = true) →
    isFinite (((List.finRange 32).take m.val).foldl (dctMac x k) 0x0000000000000000) = true →
    (dctDirect x)[k] = infOf (signBit x[m] != signBit (cosang ((2 * m.val + 1) * k.val)))

/-- A block of zeros of any signs gives a zero in every bin of the fast unit (R135 "Zero mapping"). -/
def Obligations.FastUnitMapsZerosToZero : Prop :=
  ∀ (x : Vector Word 32) (k : Fin 32),
    (∀ n : Fin 32, isZero x[n] = true) → isZero (dctFast x)[k] = true

/-- The fold takes even samples ascending and odd samples descending, and the load is bit-reversed with imaginary parts
+0 (R127, R128). -/
def Obligations.FoldAndLoadPlaceEverySample : Prop :=
  ∀ x : Vector Word 32, (fold x).length = 32 ∧ (fftLoad (fold x)).length = 32 ∧
    (∀ n : Nat, (h : n < 16) →
      (fold x)[n]? = some (x[2 * n]) ∧ (fold x)[31 - n]? = some (x[2 * n + 1])) ∧
    (∀ n : Nat, n < 32 →
      (fftLoad (fold x))[brev5 n]? = ((fold x)[n]?).map fun w => (⟨w, 0x0000000000000000⟩ : Cplx)) ∧
    (∀ n : Nat, n < 32 → brev5 n < 32 ∧ ∀ b : Nat, b < 5 → (brev5 n).testBit b = n.testBit (4 - b))

/-- The schedule of five stages: 80 butterflies with p < q < 32 and t < 16, each stage touching every element once, with
the twiddle indices of R130 (R130, R132). -/
def Obligations.FftScheduleHasTheFiveStages : Prop :=
  fftSchedule.length = 80 ∧ (∀ i ∈ fftSchedule, i.p < i.q ∧ i.q < 32 ∧ i.t < 16) ∧
  (∀ s ∈ [1, 2, 3, 4, 5],
    (∀ e ∈ List.range 32, ((fftStage s).flatMap fun i => [i.p, i.q]).count e = 1) ∧
    (∀ i ∈ fftStage s, i.q = i.p + 2 ^ (s - 1) ∧ i.t = i.p % 2 ^ (s - 1) * 2 ^ (5 - s)))

/-! The comparator -/

/-- A rendering has I digits, the point, P digits, with 1 ≤ I ≤ 309, no superfluous leading zero (R149, R150). -/
def Obligations.RenderingHasTheFixedPointShape : Prop :=
  ∀ (v : Word) (p : Nat), isFinite v = true → 1 ≤ p →
    ∃ ip fp : List Glyph,
      render v p = ip ++ Glyph.point :: fp ∧ 1 ≤ ip.length ∧ ip.length ≤ 309 ∧ fp.length = p ∧
      (∀ g ∈ ip ++ fp, g ≠ .point) ∧ (ip.head? = some (.digit 0) → ip = [.digit 0])

/-- The number that a rendering writes is the exact magnitude times 10^P rounded to nearest, ties to even (R149). -/
def Obligations.RenderingIsTheNearestDecimal : Prop :=
  ∀ (v : Word) (p : Nat), isFinite v = true → 1 ≤ p →
    2 * |(glyphsValue (render v p) : Int) * 2 ^ 1074 - magnitude v * 10 ^ p| ≤ 2 ^ 1074 ∧
    (2 * |(glyphsValue (render v p) : Int) * 2 ^ 1074 - magnitude v * 10 ^ p| = 2 ^ 1074 →
      glyphsValue (render v p) % 2 = 0)

/-- Lock-step alignment removes the same number of characters from both strings, all of them `0` or `.`, and stops when
a string is empty or leads with another character (R153). -/
def Obligations.AlignmentStripsBothInLockStep : Prop :=
  ∀ sa sb : List Glyph, ∃ n : Nat,
    align sa sb = (sa.drop n, sb.drop n) ∧ n ≤ sa.length ∧ n ≤ sb.length ∧
    (∀ g ∈ sa.take n ++ sb.take n, g = .digit 0 ∨ g = .point) ∧
    (sa.drop n = [] ∨ sb.drop n = [] ∨
      (∃ g ∈ (sa.drop n).head?, g ≠ .digit 0 ∧ g ≠ .point) ∨
      (∃ g ∈ (sb.drop n).head?, g ≠ .digit 0 ∧ g ≠ .point))

/-- The comparator is symmetric in its operands (R160 item 1). -/
def Obligations.ComparatorIsSymmetric : Prop :=
  ∀ (a b : Word) (s p : Nat), cmpSig a b s p = cmpSig b a s p

/-- Every finite value matches itself at every S, and +0 matches -0 (R160 item 4). -/
def Obligations.ComparatorIsReflexiveOnFiniteValues : Prop :=
  ∀ (a : Word) (s p : Nat),
    (isFinite a = true → cmpSig a a s p = .agree) ∧ cmpSig (zeroOf false) (zeroOf true) s p = .agree

/-- What the verdict is, for every operand. REASON 4 exactly for a NaN or an infinity; REASON 1 exactly for finite
non-zero operands of different sign bits. For finite operands that pass the sign test, with `sa`, `sb` the aligned
renderings: REASON 2 exactly when the lengths differ and one is below S (R154); otherwise a match exactly when the first
S characters, the point counting as one, or all of a shorter string, are the same, and REASON 3 when they are not
(R155, R156, R157). With S = 0 all of these match (R146). -/
def Obligations.NonFiniteAndSignTestsComeFirst : Prop :=
  ∀ (a b : Word) (s p : Nat),
    (cmpSig a b s p = .nonFinite ↔ isFinite a = false ∨ isFinite b = false) ∧
    (cmpSig a b s p = .signsDiffer ↔
      isFinite a = true ∧ isFinite b = true ∧ isZero a = false ∧ isZero b = false ∧ signBit a ≠ signBit b) ∧
    (isFinite a = true → isFinite b = true → (isZero a = true ∨ isZero b = true ∨ signBit a = signBit b) →
      ∀ sa sb : List Glyph, align (render a p) (render b p) = (sa, sb) →
        (cmpSig a b s p = .tooShort ↔ sa.length ≠ sb.length ∧ (sa.length < s ∨ sb.length < s)) ∧
        (cmpSig a b s p = .agree ↔ cmpSig a b s p ≠ .tooShort ∧ sa.take s = sb.take s) ∧
        (cmpSig a b s p = .digitsDiffer ↔ cmpSig a b s p ≠ .tooShort ∧ sa.take s ≠ sb.take s)) ∧
    (cmpSig a b 0 p = .agree ↔ cmpSig a b 0 p ≠ .nonFinite ∧ cmpSig a b 0 p ≠ .signsDiffer)

/-- With S ≤ P + 2 the length test never decides (R160 item 3). -/
def Obligations.LengthTestNeverDecidesForSmallS : Prop :=
  ∀ (a b : Word) (s p : Nat), 1 ≤ p → s ≤ p + 2 → cmpSig a b s p ≠ .tooShort

/-- If one rendered value is below 1 and the other is 1 or more, the result is a mismatch for every S ≥ 1 (R160
item 5). -/
def Obligations.ValuesStraddlingOneNeverMatch : Prop :=
  ∀ (a b : Word) (s p : Nat), 1 ≤ p → 1 ≤ s →
    scaledRound a p < 10 ^ p → 10 ^ p ≤ scaledRound b p → cmpSig a b s p ≠ .agree

/-- A zero operand matches exactly the values of magnitude at most 0.5 * 10^-P (R160 item 7). -/
def Obligations.ZeroMatchesExactlyTheInvisibleValues : Prop :=
  ∀ (z v : Word) (s p : Nat), isZero z = true → isFinite v = true → 1 ≤ p → 1 ≤ s →
    (cmpSig z v s p = .agree ↔ 2 * magnitude v * 10 ^ p ≤ 2 ^ 1074)

/-- The source's near-zero pair 1e-16 and 1e-9 is a mismatch at P = 50, S = 6, and a match at P = 8; 1e-60 and -1e-60
are rejected by the sign test (R151, R161). -/
def Obligations.NearZeroPairsAreNotEqual : Prop :=
  cmpSig 0x3C9CD2B297D889BC 0x3E112E0BE826D695 6 50 = .digitsDiffer ∧
  cmpSig 0x3C9CD2B297D889BC 0x3E112E0BE826D695 6 8 = .agree ∧
  cmpSig 0x3379B604AAACA626 0xB379B604AAACA626 6 50 = .signsDiffer
end

