-- ==== Sys2Proof/Laws/Binary64.lean ====
section
/-! SUPPORT. The fields of a pattern, of its negation and of the constants; what the rounding builds. -/

namespace Sys2Proof.Machine

/-! Fields -/

theorem expField_lt (p : Word) : expField p < 2048 := (p.extractLsb' 52 11).isLt

theorem fracField_lt (p : Word) : fracField p < 2 ^ 52 := (p.extractLsb' 0 52).isLt

theorem expField_eq (p : Word) : expField p = p.toNat / 2 ^ 52 % 2048 := by
  rw [expField, BitVec.extractLsb'_toNat, Nat.shiftRight_eq_div_pow]

theorem fracField_eq (p : Word) : fracField p = p.toNat % 2 ^ 52 := by
  rw [fracField, BitVec.extractLsb'_toNat, Nat.shiftRight_eq_div_pow, pow_zero, Nat.div_one]

theorem signBit_eq (p : Word) : signBit p = decide (2 ^ 63 ≤ p.toNat) := by
  have h := p.isLt
  rw [signBit, BitVec.getLsbD, Nat.testBit_eq_decide_div_mod_eq]
  congr 1
  rw [eq_iff_iff]
  omega

/-- A pattern is its three fields (R90). -/
theorem toNat_eq_fields (p : Word) :
    p.toNat = (if signBit p then 2 ^ 63 else 0) + expField p * 2 ^ 52 + fracField p := by
  have h := p.isLt
  rw [signBit_eq, expField_eq, fracField_eq]
  by_cases hs : 2 ^ 63 ≤ p.toNat
  · simp only [hs, decide_true, if_true]; omega
  · simp only [hs, decide_false, Bool.false_eq_true, if_false]; omega

theorem eq_of_fields {p q : Word} (hs : signBit p = signBit q) (he : expField p = expField q)
    (hf : fracField p = fracField q) : p = q := by
  apply BitVec.eq_of_toNat_eq
  rw [toNat_eq_fields p, toNat_eq_fields q, hs, he, hf]

/-- The fields of a sign and 63 magnitude bits put together. -/
theorem pattern_toNat (s : Bool) (m : Nat) (h : m < 2 ^ 63) :
    (zeroOf s ||| BitVec.ofNat 64 m).toNat = (if s then 2 ^ 63 else 0) + m := by
  rw [BitVec.toNat_or, BitVec.toNat_ofNat, Nat.mod_eq_of_lt (by omega)]
  cases s with
  | false => simp [zeroOf]
  | true =>
    have := Nat.two_pow_add_eq_or_of_lt h 1
    simpa [zeroOf] using this.symm

theorem signBit_pattern (s : Bool) (m : Nat) (h : m < 2 ^ 63) : signBit (zeroOf s ||| BitVec.ofNat 64 m) = s := by
  rw [signBit_eq, pattern_toNat s m h]
  cases s with
  | false => simp only [Bool.false_eq_true, if_false, decide_eq_false_iff_not]; omega
  | true => simp

theorem expField_pattern (s : Bool) (m : Nat) (h : m < 2 ^ 63) :
    expField (zeroOf s ||| BitVec.ofNat 64 m) = m / 2 ^ 52 := by
  rw [expField_eq, pattern_toNat s m h]
  cases s <;> simp only [if_true, if_false, Bool.false_eq_true] <;> omega

theorem fracField_pattern (s : Bool) (m : Nat) (h : m < 2 ^ 63) :
    fracField (zeroOf s ||| BitVec.ofNat 64 m) = m % 2 ^ 52 := by
  rw [fracField_eq, pattern_toNat s m h]
  cases s <;> simp only [if_true, if_false, Bool.false_eq_true] <;> omega

/-! Negation (R91) -/

theorem neg_toNat (p : Word) :
    (neg p).toNat = if 2 ^ 63 ≤ p.toNat then p.toNat - 2 ^ 63 else p.toNat + 2 ^ 63 := by
  have hp := p.isLt
  have hor : ∀ m, m < 2 ^ 63 → 2 ^ 63 ^^^ m = 2 ^ 63 + m := by
    intro m hm
    have h1 := Nat.two_pow_add_eq_or_of_lt hm 1
    simp only [mul_one] at h1
    rw [h1]
    apply Nat.eq_of_testBit_eq
    intro i
    rw [Nat.testBit_xor, Nat.testBit_or, Nat.testBit_two_pow]
    by_cases hi : 63 = i
    · subst hi; simp [Nat.testBit_lt_two_pow hm]
    · simp [hi]
  have hx : (neg p).toNat = 2 ^ 63 ^^^ p.toNat := by rw [neg, BitVec.toNat_xor, Nat.xor_comm]; rfl
  rw [hx]
  split
  · rename_i h
    conv_lhs => rw [show p.toNat = 2 ^ 63 + (p.toNat - 2 ^ 63) by omega, ← hor _ (by omega), ← Nat.xor_assoc,
      Nat.xor_self, Nat.zero_xor]
  · rw [hor _ (by omega), Nat.add_comm]

@[simp] theorem signBit_neg (p : Word) : signBit (neg p) = !signBit p := by
  have hp := p.isLt
  rw [signBit_eq, signBit_eq, neg_toNat]
  by_cases h : 2 ^ 63 ≤ p.toNat <;> simp only [h, if_true, if_false, decide_true, decide_false, Bool.not_true,
    Bool.not_false, decide_eq_true_eq, decide_eq_false_iff_not] <;> omega

@[simp] theorem expField_neg (p : Word) : expField (neg p) = expField p := by
  have hp := p.isLt
  rw [expField_eq, expField_eq, neg_toNat]; split <;> omega

@[simp] theorem fracField_neg (p : Word) : fracField (neg p) = fracField p := by
  have hp := p.isLt
  rw [fracField_eq, fracField_eq, neg_toNat]; split <;> omega

@[simp] theorem isNaN_neg (p : Word) : isNaN (neg p) = isNaN p := by simp [isNaN]

@[simp] theorem isInf_neg (p : Word) : isInf (neg p) = isInf p := by simp [isInf]

@[simp] theorem isFinite_neg (p : Word) : isFinite (neg p) = isFinite p := by simp [isFinite]

@[simp] theorem isZero_neg (p : Word) : isZero (neg p) = isZero p := by simp [isZero]

@[simp] theorem magnitude_neg (p : Word) : magnitude (neg p) = magnitude p := by simp [magnitude]

@[simp] theorem fixed_neg (p : Word) : fixed (neg p) = -fixed p := by
  cases h : signBit p <;> simp [fixed, h]

theorem neg_neg_word (p : Word) : neg (neg p) = p := eq_of_fields (by simp) (by simp) (by simp)

/-! Classes -/

theorem isFinite_iff (p : Word) : isFinite p = true ↔ isNaN p = false ∧ isInf p = false := by
  by_cases he : expField p = 2047 <;> by_cases hf : fracField p = 0 <;> simp [isFinite, isNaN, isInf, he, hf]

theorem magnitude_eq_zero (p : Word) : magnitude p = 0 ↔ isZero p = true := by
  unfold magnitude isZero
  by_cases he : expField p = 0
  · simp [he]
  · simp [he]

theorem isZero_iff (p : Word) : isZero p = true ↔ p = zeroOf (signBit p) := by
  constructor
  · intro h
    simp only [isZero, Bool.and_eq_true, beq_iff_eq] at h
    refine eq_of_fields ?_ ?_ ?_ <;> cases hs : signBit p <;> simp [h.1, h.2] <;> decide
  · intro h
    rw [h]
    cases signBit p <;> decide

@[simp] theorem signBit_zeroOf (s : Bool) : signBit (zeroOf s) = s := by cases s <;> decide

@[simp] theorem signBit_infOf (s : Bool) : signBit (infOf s) = s := by cases s <;> decide

@[simp] theorem isZero_zeroOf (s : Bool) : isZero (zeroOf s) = true := by cases s <;> decide

@[simp] theorem isFinite_zeroOf (s : Bool) : isFinite (zeroOf s) = true := by cases s <;> decide

@[simp] theorem isNaN_zeroOf (s : Bool) : isNaN (zeroOf s) = false := by cases s <;> decide

@[simp] theorem isNaN_infOf (s : Bool) : isNaN (infOf s) = false := by cases s <;> decide

@[simp] theorem isInf_infOf (s : Bool) : isInf (infOf s) = true := by cases s <;> decide

@[simp] theorem isNaN_cnan : isNaN cnan = true := by decide

@[simp] theorem neg_zeroOf (s : Bool) : neg (zeroOf s) = zeroOf (!s) := by cases s <;> decide

@[simp] theorem neg_infOf (s : Bool) : neg (infOf s) = infOf (!s) := by cases s <;> decide

/-! Rounding -/

@[simp] theorem round64_zero (s : Bool) (k : Nat) : round64 s 0 k = zeroOf s := by simp [round64]

/-- The three things `round64` can give: a zero, a finite pattern of the sign, the infinity of the sign (R92). -/
theorem round64_cases (s : Bool) (n k : Nat) :
    (n = 0 ∧ round64 s n k = zeroOf s) ∨
    (n ≠ 0 ∧ roundMagnitude n k < 2047 * 2 ^ 52 ∧ round64 s n k = zeroOf s ||| BitVec.ofNat 64 (roundMagnitude n k)) ∨
    (n ≠ 0 ∧ 2047 * 2 ^ 52 ≤ roundMagnitude n k ∧ round64 s n k = infOf s) := by
  unfold round64
  by_cases h0 : n = 0
  · simp [h0]
  · by_cases hm : roundMagnitude n k < 2047 * 2 ^ 52
    · exact .inr (.inl ⟨h0, hm, by rw [if_neg h0, if_pos hm]⟩)
    · exact .inr (.inr ⟨h0, Nat.le_of_not_lt hm, by rw [if_neg h0, if_neg hm]⟩)

@[simp] theorem signBit_round64 (s : Bool) (n k : Nat) : signBit (round64 s n k) = s := by
  obtain ⟨_, h⟩ | ⟨_, hm, h⟩ | ⟨_, _, h⟩ := round64_cases s n k <;> rw [h]
  · simp
  · exact signBit_pattern s _ (by omega)
  · simp

/-- A rounded value is never a NaN. -/
@[simp] theorem isNaN_round64 (s : Bool) (n k : Nat) : isNaN (round64 s n k) = false := by
  obtain ⟨_, h⟩ | ⟨_, hm, h⟩ | ⟨_, _, h⟩ := round64_cases s n k <;> rw [h]
  · simp
  · rw [isNaN, expField_pattern s _ (show roundMagnitude n k < 2 ^ 63 by omega),
      beq_false_of_ne (show roundMagnitude n k / 2 ^ 52 ≠ 2047 by omega), Bool.false_and]
  · simp

/-- The sign goes through the rounding (R92, R99). -/
theorem round64_not (s : Bool) (n k : Nat) : round64 (!s) n k = neg (round64 s n k) := by
  obtain ⟨h0, h⟩ | ⟨h0, hm, h⟩ | ⟨h0, hm, h⟩ := round64_cases s n k <;> rw [h]
  · simp [h0]
  · have hlt : roundMagnitude n k < 2 ^ 63 := by omega
    rw [round64, if_neg h0, if_pos hm]
    refine eq_of_fields ?_ ?_ ?_
    · rw [signBit_neg, signBit_pattern _ _ hlt, signBit_pattern _ _ hlt]
    · rw [expField_neg, expField_pattern _ _ hlt, expField_pattern _ _ hlt]
    · rw [fracField_neg, fracField_pattern _ _ hlt, fracField_pattern _ _ hlt]
  · rw [round64, if_neg h0, if_neg (Nat.not_lt_of_le hm), neg_infOf]

/-- Rounding to an integer is off by at most one half, and by one half only to an even integer (R92, R149). -/
theorem roundHalfEven_spec (n sh : Nat) :
    let q := roundHalfEven (n / 2 ^ sh) (n % 2 ^ sh) sh
    2 * n ≤ 2 * (q * 2 ^ sh) + 2 ^ sh ∧ 2 * (q * 2 ^ sh) ≤ 2 * n + 2 ^ sh ∧
      ((2 * n = 2 * (q * 2 ^ sh) + 2 ^ sh ∨ 2 * (q * 2 ^ sh) = 2 * n + 2 ^ sh) → q % 2 = 0) := by
  have hp : 0 < 2 ^ sh := Nat.two_pow_pos sh
  have hd := Nat.div_add_mod n (2 ^ sh)
  have hlt := Nat.mod_lt n hp
  have hmul : (n / 2 ^ sh + 1) * 2 ^ sh = n / 2 ^ sh * 2 ^ sh + 2 ^ sh := by ring
  have hcomm : 2 ^ sh * (n / 2 ^ sh) = n / 2 ^ sh * 2 ^ sh := Nat.mul_comm _ _
  intro q
  show _ ∧ _ ∧ _
  simp only [q, roundHalfEven]
  split
  · rw [hmul]; omega
  · omega

end Sys2Proof.Machine
end

