-- ==== Sys2Proof/Laws/State.lean ====
section
/-! SUPPORT. What each update of the state does to each field, so that no proof unfolds an update. -/

namespace Sys2Proof.Machine

variable (s : State)

/-! What a header beat writes (R26, R54). -/

@[simp] theorem captureHeader_phase (d : Word) : (captureHeader d s).phase = s.phase := rfl
@[simp] theorem captureHeader_hdr (d : Word) : (captureHeader d s).hdr = d := rfl
@[simp] theorem captureHeader_len (d : Word) : (captureHeader d s).len = 0 := rfl
@[simp] theorem captureHeader_sb (d : Word) : (captureHeader d s).sb = s.sb := rfl
@[simp] theorem captureHeader_xb (d : Word) : (captureHeader d s).xb = s.xb := rfl
@[simp] theorem captureHeader_rstat (d : Word) : (captureHeader d s).rstat = s.rstat := rfl
@[simp] theorem captureHeader_ridx (d : Word) : (captureHeader d s).ridx = s.ridx := rfl
@[simp] theorem captureHeader_cfg (d : Word) : (captureHeader d s).cfg = s.cfg := rfl
@[simp] theorem captureHeader_cmd (d : Word) : (captureHeader d s).cmd = s.cmd := rfl
@[simp] theorem captureHeader_rsp (d : Word) : (captureHeader d s).rsp = s.rsp := rfl
@[simp] theorem captureHeader_turns (d : Word) : (captureHeader d s).turns = s.turns := rfl
@[simp] theorem captureHeader_draws (d : Word) : (captureHeader d s).draws = s.draws := rfl

/-! What a payload beat writes (R27, R55). -/

@[simp] theorem capturePayload_phase (d : Word) : (capturePayload d s).phase = s.phase := rfl
@[simp] theorem capturePayload_hdr (d : Word) : (capturePayload d s).hdr = s.hdr := rfl
@[simp] theorem capturePayload_len (d : Word) : (capturePayload d s).len = nextLen s.len := rfl
@[simp] theorem capturePayload_sb (d : Word) : (capturePayload d s).sb = storeSample d s.len s.sb := rfl
@[simp] theorem capturePayload_xb (d : Word) : (capturePayload d s).xb = s.xb := rfl
@[simp] theorem capturePayload_rstat (d : Word) : (capturePayload d s).rstat = s.rstat := rfl
@[simp] theorem capturePayload_ridx (d : Word) : (capturePayload d s).ridx = s.ridx := rfl
@[simp] theorem capturePayload_cfg (d : Word) : (capturePayload d s).cfg = s.cfg := rfl
@[simp] theorem capturePayload_cmd (d : Word) : (capturePayload d s).cmd = s.cmd := rfl
@[simp] theorem capturePayload_rsp (d : Word) : (capturePayload d s).rsp = s.rsp := rfl
@[simp] theorem capturePayload_turns (d : Word) : (capturePayload d s).turns = s.turns := rfl
@[simp] theorem capturePayload_draws (d : Word) : (capturePayload d s).draws = s.draws := rfl

/-! What the end of `Exec` writes (R58). -/

@[simp] theorem respond_phase (w : Word) : (respond w s).phase = .respond := rfl
@[simp] theorem respond_hdr (w : Word) : (respond w s).hdr = s.hdr := rfl
@[simp] theorem respond_len (w : Word) : (respond w s).len = s.len := rfl
@[simp] theorem respond_sb (w : Word) : (respond w s).sb = s.sb := rfl
@[simp] theorem respond_xb (w : Word) : (respond w s).xb = s.xb := rfl
@[simp] theorem respond_rstat (w : Word) : (respond w s).rstat = w := rfl
@[simp] theorem respond_ridx (w : Word) : (respond w s).ridx = 0 := rfl
@[simp] theorem respond_cfg (w : Word) : (respond w s).cfg = s.cfg := rfl
@[simp] theorem respond_cmd (w : Word) : (respond w s).cmd = s.cmd := rfl
@[simp] theorem respond_rsp (w : Word) : (respond w s).rsp = s.rsp := rfl
@[simp] theorem respond_turns (w : Word) : (respond w s).turns = s.turns := rfl
@[simp] theorem respond_draws (w : Word) : (respond w s).draws = s.draws := rfl

/-! What taking an error writes (R176). -/

@[simp] theorem raise_phase (e : CmdError) : (raise e s).phase = .respond := rfl
@[simp] theorem raise_hdr (e : CmdError) : (raise e s).hdr = s.hdr := rfl
@[simp] theorem raise_len (e : CmdError) : (raise e s).len = s.len := rfl
@[simp] theorem raise_sb (e : CmdError) : (raise e s).sb = s.sb := rfl
@[simp] theorem raise_xb (e : CmdError) : (raise e s).xb = s.xb := rfl
@[simp] theorem raise_rstat (e : CmdError) : (raise e s).rstat = statusWord e.code (headerOpc s.hdr) s.len 0 0 := rfl
@[simp] theorem raise_ridx (e : CmdError) : (raise e s).ridx = 0 := rfl
@[simp] theorem raise_cfg (e : CmdError) : (raise e s).cfg = s.cfg := rfl
@[simp] theorem raise_cmd (e : CmdError) : (raise e s).cmd = s.cmd := rfl
@[simp] theorem raise_rsp (e : CmdError) : (raise e s).rsp = s.rsp := rfl
@[simp] theorem raise_turns (e : CmdError) : (raise e s).turns = s.turns := rfl
@[simp] theorem raise_draws (e : CmdError) : (raise e s).draws = s.draws := rfl

/-! What a successful transform writes (R22, R58). -/

@[simp] theorem completeTransform_phase (x : Vector Word 32) : (completeTransform x s).phase = .respond := rfl
@[simp] theorem completeTransform_hdr (x : Vector Word 32) : (completeTransform x s).hdr = s.hdr := rfl
@[simp] theorem completeTransform_len (x : Vector Word 32) : (completeTransform x s).len = s.len := rfl
@[simp] theorem completeTransform_sb (x : Vector Word 32) : (completeTransform x s).sb = s.sb := rfl
@[simp] theorem completeTransform_xb (x : Vector Word 32) : (completeTransform x s).xb = x := rfl
@[simp] theorem completeTransform_rstat (x : Vector Word 32) : (completeTransform x s).rstat = statusWord statusOk (headerOpc s.hdr) s.len 0 0 := rfl
@[simp] theorem completeTransform_ridx (x : Vector Word 32) : (completeTransform x s).ridx = 0 := rfl
@[simp] theorem completeTransform_cfg (x : Vector Word 32) : (completeTransform x s).cfg = s.cfg := rfl
@[simp] theorem completeTransform_cmd (x : Vector Word 32) : (completeTransform x s).cmd = s.cmd := rfl
@[simp] theorem completeTransform_rsp (x : Vector Word 32) : (completeTransform x s).rsp = s.rsp := rfl
@[simp] theorem completeTransform_turns (x : Vector Word 32) : (completeTransform x s).turns = s.turns := rfl
@[simp] theorem completeTransform_draws (x : Vector Word 32) : (completeTransform x s).draws = s.draws := rfl

/-! What a successful comparison writes (R58, R159). -/

@[simp] theorem completeCompare_phase (v : Verdict) : (completeCompare v s).phase = .respond := rfl
@[simp] theorem completeCompare_hdr (v : Verdict) : (completeCompare v s).hdr = s.hdr := rfl
@[simp] theorem completeCompare_len (v : Verdict) : (completeCompare v s).len = s.len := rfl
@[simp] theorem completeCompare_sb (v : Verdict) : (completeCompare v s).sb = s.sb := rfl
@[simp] theorem completeCompare_xb (v : Verdict) : (completeCompare v s).xb = s.xb := rfl
@[simp] theorem completeCompare_rstat (v : Verdict) : (completeCompare v s).rstat = statusWord statusOk (headerOpc s.hdr) s.len v.matchBit v.reason := rfl
@[simp] theorem completeCompare_ridx (v : Verdict) : (completeCompare v s).ridx = 0 := rfl
@[simp] theorem completeCompare_cfg (v : Verdict) : (completeCompare v s).cfg = s.cfg := rfl
@[simp] theorem completeCompare_cmd (v : Verdict) : (completeCompare v s).cmd = s.cmd := rfl
@[simp] theorem completeCompare_rsp (v : Verdict) : (completeCompare v s).rsp = s.rsp := rfl
@[simp] theorem completeCompare_turns (v : Verdict) : (completeCompare v s).turns = s.turns := rfl
@[simp] theorem completeCompare_draws (v : Verdict) : (completeCompare v s).draws = s.draws := rfl

/-! What a response beat writes (R60, R177). -/

@[simp] theorem sendBeat_phase (b : Beat) : (sendBeat b s).phase = if b.last then .idle else s.phase := rfl
@[simp] theorem sendBeat_hdr (b : Beat) : (sendBeat b s).hdr = s.hdr := rfl
@[simp] theorem sendBeat_len (b : Beat) : (sendBeat b s).len = s.len := rfl
@[simp] theorem sendBeat_sb (b : Beat) : (sendBeat b s).sb = s.sb := rfl
@[simp] theorem sendBeat_xb (b : Beat) : (sendBeat b s).xb = s.xb := rfl
@[simp] theorem sendBeat_rstat (b : Beat) : (sendBeat b s).rstat = s.rstat := rfl
@[simp] theorem sendBeat_ridx (b : Beat) : (sendBeat b s).ridx = s.ridx + 1 := rfl
@[simp] theorem sendBeat_cfg (b : Beat) : (sendBeat b s).cfg = s.cfg := rfl
@[simp] theorem sendBeat_cmd (b : Beat) : (sendBeat b s).cmd = s.cmd := rfl
@[simp] theorem sendBeat_rsp (b : Beat) : (sendBeat b s).rsp = s.rsp ++ [b] := rfl
@[simp] theorem sendBeat_turns (b : Beat) : (sendBeat b s).turns = s.turns := rfl
@[simp] theorem sendBeat_draws (b : Beat) : (sendBeat b s).draws = s.draws := rfl

/-! What a reset edge writes (R195, R196). -/

@[simp] theorem resetEdge_phase : (resetEdge s).phase = .idle := rfl
@[simp] theorem resetEdge_hdr : (resetEdge s).hdr = Config.unspecifiedWord s.draws := rfl
@[simp] theorem resetEdge_len : (resetEdge s).len = 0 := rfl
@[simp] theorem resetEdge_sb : (resetEdge s).sb = Vector.ofFn fun i : Fin 32 => Config.unspecifiedWord (s.draws + 2 + i) := rfl
@[simp] theorem resetEdge_xb : (resetEdge s).xb = Vector.ofFn fun i : Fin 32 => Config.unspecifiedWord (s.draws + 34 + i) := rfl
@[simp] theorem resetEdge_rstat : (resetEdge s).rstat = Config.unspecifiedWord (s.draws + 1) := rfl
@[simp] theorem resetEdge_ridx : (resetEdge s).ridx = 0 := rfl
@[simp] theorem resetEdge_cfg : (resetEdge s).cfg = s.cfg := rfl
@[simp] theorem resetEdge_cmd : (resetEdge s).cmd = s.cmd := rfl
@[simp] theorem resetEdge_rsp : (resetEdge s).rsp = s.rsp := rfl
@[simp] theorem resetEdge_turns : (resetEdge s).turns = s.turns := rfl
@[simp] theorem resetEdge_draws : (resetEdge s).draws = s.draws + unspecifiedItems := rfl

end Sys2Proof.Machine
end

