-- ==== Sys2Proof/Laws/Ops.lean ====
section
/-! SUPPORT. What each shared operation can do, said once. -/

namespace Sys2Proof.Machine

/-! Captured beats -/

theorem storeSample_getElem (d : Word) (len : BitVec 16) (sb : Vector Word 32) (i : Fin 32) :
    (storeSample d len sb)[i] = if i.val = len.toNat then d else sb[i] := by
  unfold storeSample
  split
  · simp only [Fin.getElem_fin, Vector.getElem_set]
    by_cases h : i.val = len.toNat
    · simp [h]
    · simp [h, Ne.symm h]
  · rename_i hlen
    have : i.val ≠ len.toNat := by omega
    simp [this]

/-- A payload beat beyond the 32nd is stored nowhere (R56). -/
theorem storeSample_of_full (d : Word) (len : BitVec 16) (sb : Vector Word 32) (h : 32 ≤ len.toNat) :
    storeSample d len sb = sb := by
  simp [storeSample, Nat.not_lt.mpr h]

theorem nextLen_toNat (len : BitVec 16) : (nextLen len).toNat = min (len.toNat + 1) 0xFFFF := by
  unfold nextLen
  split
  · subst_vars; decide
  · rename_i h
    have : len.toNat ≠ 0xFFFF := fun e => h (BitVec.eq_of_toNat_eq (by simpa using e))
    have := len.isLt
    rw [BitVec.toNat_add]
    simp
    omega

/-! Status words -/

theorem statusWord_toNat (st opc : BitVec 8) (len : BitVec 16) (m : BitVec 1) (r : BitVec 3) :
    (statusWord st opc len m r).toNat =
      st.toNat + opc.toNat * 2 ^ 8 + len.toNat * 2 ^ 16 + m.toNat * 2 ^ 32 + r.toNat * 2 ^ 33 := by
  have h₁ := st.isLt; have h₂ := opc.isLt; have h₃ := len.isLt; have h₄ := m.isLt; have h₅ := r.isLt
  rw [statusWord, BitVec.toNat_ofNat, Nat.mod_eq_of_lt]
  omega

@[simp] theorem statusField_statusWord (st opc : BitVec 8) (len : BitVec 16) (m : BitVec 1) (r : BitVec 3) :
    statusField (statusWord st opc len m r) = st := by
  have h₁ := st.isLt; have h₂ := opc.isLt; have h₃ := len.isLt; have h₄ := m.isLt; have h₅ := r.isLt
  apply BitVec.eq_of_toNat_eq
  rw [statusField, BitVec.extractLsb'_toNat, statusWord_toNat, Nat.shiftRight_eq_div_pow]
  omega

@[simp] theorem statusOpc_statusWord (st opc : BitVec 8) (len : BitVec 16) (m : BitVec 1) (r : BitVec 3) :
    statusOpc (statusWord st opc len m r) = opc := by
  have h₁ := st.isLt; have h₂ := opc.isLt; have h₃ := len.isLt; have h₄ := m.isLt; have h₅ := r.isLt
  apply BitVec.eq_of_toNat_eq
  rw [statusOpc, BitVec.extractLsb'_toNat, statusWord_toNat, Nat.shiftRight_eq_div_pow]
  omega

@[simp] theorem statusLen_statusWord (st opc : BitVec 8) (len : BitVec 16) (m : BitVec 1) (r : BitVec 3) :
    statusLen (statusWord st opc len m r) = len := by
  have h₁ := st.isLt; have h₂ := opc.isLt; have h₃ := len.isLt; have h₄ := m.isLt; have h₅ := r.isLt
  apply BitVec.eq_of_toNat_eq
  rw [statusLen, BitVec.extractLsb'_toNat, statusWord_toNat, Nat.shiftRight_eq_div_pow]
  omega

@[simp] theorem statusMatch_statusWord (st opc : BitVec 8) (len : BitVec 16) (m : BitVec 1) (r : BitVec 3) :
    statusMatch (statusWord st opc len m r) = m := by
  have h₁ := st.isLt; have h₂ := opc.isLt; have h₃ := len.isLt; have h₄ := m.isLt; have h₅ := r.isLt
  apply BitVec.eq_of_toNat_eq
  rw [statusMatch, BitVec.extractLsb'_toNat, statusWord_toNat, Nat.shiftRight_eq_div_pow]
  omega

@[simp] theorem statusReason_statusWord (st opc : BitVec 8) (len : BitVec 16) (m : BitVec 1) (r : BitVec 3) :
    statusReason (statusWord st opc len m r) = r := by
  have h₁ := st.isLt; have h₂ := opc.isLt; have h₃ := len.isLt; have h₄ := m.isLt; have h₅ := r.isLt
  apply BitVec.eq_of_toNat_eq
  rw [statusReason, BitVec.extractLsb'_toNat, statusWord_toNat, Nat.shiftRight_eq_div_pow]
  omega

@[simp] theorem statusUpper_statusWord (st opc : BitVec 8) (len : BitVec 16) (m : BitVec 1) (r : BitVec 3) :
    statusUpper (statusWord st opc len m r) = 0 := by
  have h₁ := st.isLt; have h₂ := opc.isLt; have h₃ := len.isLt; have h₄ := m.isLt; have h₅ := r.isLt
  apply BitVec.eq_of_toNat_eq
  rw [statusUpper, BitVec.extractLsb'_toNat, statusWord_toNat, Nat.shiftRight_eq_div_pow]
  change _ = 0
  omega

theorem responseBeats_eq (w : Word) : responseBeats w = 33 ∨ responseBeats w = 1 := by
  unfold responseBeats; split <;> simp

@[simp] theorem responseBeats_statusWord (st opc : BitVec 8) (len : BitVec 16) (m : BitVec 1) (r : BitVec 3) :
    responseBeats (statusWord st opc len m r) =
      if st = statusOk ∧ (opc = 0x01 ∨ opc = 0x02) then 33 else 1 := by
  simp [responseBeats]

/-! Response beats -/

/-- With RIDX at most 32 there is a beat to send; its word and last-flag are R60's. -/
theorem offeredBeat_of_le (s : State) (h : s.ridx ≤ 32) :
    ∃ d, offeredBeat s = some { data := d, last := s.ridx + 1 == responseBeats s.rstat } ∧
      (s.ridx = 0 → d = s.rstat) ∧ ∀ j : Fin 32, s.ridx = j.val + 1 → d = s.xb[j] := by
  unfold offeredBeat responseWord
  by_cases h0 : s.ridx = 0
  · exact ⟨s.rstat, by simp [h0], fun _ => rfl, fun j hj => by omega⟩
  · have hlt : s.ridx - 1 < 32 := by omega
    refine ⟨s.xb[s.ridx - 1], by simp [h0, hlt], fun e => absurd e h0, fun j hj => ?_⟩
    simp [hj]

theorem offeredBeat_some (s : State) (b : Beat) (h : offeredBeat s = some b) :
    s.ridx ≤ 32 ∧ b.last = (s.ridx + 1 == responseBeats s.rstat) := by
  unfold offeredBeat responseWord at h
  by_cases h0 : s.ridx = 0
  · simp [h0] at h; subst h; simp [h0]
  · simp only [h0, if_false, Option.map_eq_some_iff] at h
    obtain ⟨d, hd, rfl⟩ := h
    refine ⟨?_, rfl⟩
    by_contra hgt
    rw [Vector.getElem?_eq_none (by omega)] at hd
    cases hd

/-! `Exec` -/

/-- Everything an instruction can do: a transform completes, a comparison completes, or one of the two length errors is
raised (R58, R170). -/
theorem exec_cases (i : Instr) (s : State) :
    (s.len = 32 ∧ i = .dctDirect ∧ exec i s = .next (completeTransform (dctDirect s.sb) s)) ∨
    (s.len = 32 ∧ i = .dctFast ∧ exec i s = .next (completeTransform (dctFast s.sb) s)) ∨
    (s.len = 2 ∧ ∃ sig, i = .cmpSig sig ∧
      exec i s = .next (completeCompare (cmpSig s.sb[0] s.sb[1] sig.toNat s.cfg.pFrac) s)) ∨
    (s.len ≠ 32 ∧ (i = .dctDirect ∨ i = .dctFast) ∧ exec i s = .next (raise .invalidLength s)) ∨
    (s.len ≠ 2 ∧ (∃ sig, i = .cmpSig sig) ∧ exec i s = .next (raise .badOperandCount s)) := by
  cases i with
  | dctDirect =>
    by_cases h : s.len = 32#16 <;> simp [exec, execDctDirect, operandCount, sampleBlock, h]
  | dctFast =>
    by_cases h : s.len = 32#16 <;> simp [exec, execDctFast, operandCount, sampleBlock, h]
  | cmpSig sig =>
    by_cases h : s.len = 2#16 <;>
      simp [exec, execCmpSig, operandCount, operandA, operandB, significance, h]

/-- `Exec` always answers a next state in RESPOND with RIDX 0, and what it leaves unchanged (R58, R176). -/
theorem execFrame_next (s : State) :
    ∃ t, execFrame s = .next t ∧ t.phase = .respond ∧ t.ridx = 0 ∧ t.hdr = s.hdr ∧ t.len = s.len ∧ t.sb = s.sb ∧
      t.cfg = s.cfg ∧ t.cmd = s.cmd ∧ t.rsp = s.rsp ∧ t.turns = s.turns ∧ t.draws = s.draws := by
  unfold execFrame
  cases decode s.hdr with
  | illegal why => exact ⟨_, rfl, by simp⟩
  | legal i =>
    obtain ⟨_, _, h⟩ | ⟨_, _, h⟩ | ⟨_, _, _, h⟩ | ⟨_, _, h⟩ | ⟨_, _, h⟩ := exec_cases i s <;>
      exact ⟨_, h, by simp⟩

/-! The decoder -/

/-- What a legal header's low byte and length say about its instruction. -/
theorem decode_legal_opc (h : Word) (i : Instr) (hd : decode h = .legal i) :
    (i = .dctDirect ∧ headerOpc h = 0x01) ∨ (i = .dctFast ∧ headerOpc h = 0x02) ∨
      (i = .cmpSig (headerS h) ∧ headerOpc h = 0x03) := by
  unfold decode at hd
  split at hd
  · cases hd
  · split at hd
    · split at hd
      · cases hd; left; exact ⟨rfl, ‹_›⟩
      · cases hd
    · split at hd
      · split at hd
        · cases hd; right; left; exact ⟨rfl, ‹_›⟩
        · cases hd
      · split at hd
        · cases hd; right; right; exact ⟨rfl, ‹_›⟩
        · cases hd

end Sys2Proof.Machine
end

