-- ==== Sys2Proof/Laws/PerInstr.lean ====
section
/-! SUPPORT. Statements made for every constructor of `Instr`. -/

namespace Sys2Proof.Laws.HeaderLegal

/-- The header word of an instruction is legal (R76). -/
def Statement (i : Instr) : Prop := legalHeader (encode i) = true

theorem dctDirect : Statement .dctDirect := by unfold Statement; decide

theorem dctFast : Statement .dctFast := by unfold Statement; decide

theorem cmpSig (s : BitVec 8) : Statement (.cmpSig s) := by
  have hs := s.isLt
  have hn : (encode (.cmpSig s)).toNat = 3 + s.toNat * 2 ^ 8 := by
    rw [encode, BitVec.toNat_ofNat, Nat.mod_eq_of_lt]
    omega
  have hopc : (encode (.cmpSig s)).extractLsb' 0 8 = 0x03#8 := by
    apply BitVec.eq_of_toNat_eq
    rw [BitVec.extractLsb'_toNat, hn, Nat.shiftRight_eq_div_pow]
    simp only [BitVec.toNat_ofNat]
    omega
  have hrsv : (encode (.cmpSig s)).extractLsb' 16 48 = 0#48 := by
    apply BitVec.eq_of_toNat_eq
    rw [BitVec.extractLsb'_toNat, hn, Nat.shiftRight_eq_div_pow]
    simp only [BitVec.toNat_ofNat]
    omega
  simp [Statement, legalHeader, headerReservedClear, headerOpcodeKnown, headerSZeroOnTransform, hopc, hrsv]

end Sys2Proof.Laws.HeaderLegal
end

