-- ==== Sys2Proof/Laws/Step.lean ====
section
/-! SUPPORT. Everything a step can do, said once; the facts about runs. -/

namespace Sys2Proof.Machine

/-- A step is the edge that the schedule names next, on the state with that entry taken off. -/
theorem step_eq (s : State) : step s = edge (nextTurn s) { s with turns := s.turns.tail } := by
  unfold step clockEdge nextTurn
  cases h : s.turns with
  | nil => simp only [List.headD_nil, List.tail_nil]; congr 1; cases s; simp_all
  | cons t ts => simp

theorem step_reset (s : State) (h : nextTurn s = .reset) :
    step s = .next (resetEdge { s with turns := s.turns.tail }) := by
  rw [step_eq, h]; rfl

theorem step_idle (s : State) (h : nextTurn s = .idle) : step s = .next { s with turns := s.turns.tail } := by
  rw [step_eq, h]; rfl

theorem step_hold (s : State) (h : nextTurn s = .transfer) (hp : s.phase ≠ .respond) (hc : s.cmd = []) :
    step s = .next { s with turns := s.turns.tail } := by
  rw [step_eq, h]; unfold edge transferEdge
  cases hph : s.phase <;> simp_all

/-- The step that takes a header beat. -/
theorem step_header (s : State) (b : Beat) (rest : List Beat) (h : nextTurn s = .transfer) (hp : s.phase = .idle)
    (hc : s.cmd = b :: rest) :
    step s = if b.last
      then execFrame { s with hdr := b.data, len := 0, cmd := rest, turns := s.turns.tail }
      else .next { s with hdr := b.data, len := 0, phase := .collect, cmd := rest, turns := s.turns.tail } := by
  rw [step_eq, h]
  simp only [edge, transferEdge, hp, hc, acceptBeat, capture, captureHeader, if_true]

/-- The step that takes a payload beat. -/
theorem step_payload (s : State) (b : Beat) (rest : List Beat) (h : nextTurn s = .transfer) (hp : s.phase = .collect)
    (hc : s.cmd = b :: rest) :
    step s = if b.last
      then execFrame { s with
        sb := storeSample b.data s.len s.sb, len := nextLen s.len, cmd := rest, turns := s.turns.tail }
      else .next { s with
        sb := storeSample b.data s.len s.sb, len := nextLen s.len, cmd := rest, turns := s.turns.tail } := by
  rw [step_eq, h]
  simp only [edge, transferEdge, hp, hc, acceptBeat, capture, capturePayload, reduceCtorEq, if_false]

/-- The step in RESPOND. -/
theorem step_respond (s : State) (h : nextTurn s = .transfer) (hp : s.phase = .respond) :
    step s = match offeredBeat s with
      | some b => .next { s with
          ridx := s.ridx + 1, phase := if b.last then .idle else .respond, rsp := s.rsp ++ [b],
          turns := s.turns.tail }
      | none => .fault .rspIndexOutOfRange := by
  rw [step_eq, h]
  simp only [edge, transferEdge, hp, emitBeat]
  have ho : offeredBeat { s with turns := s.turns.tail } = offeredBeat s := rfl
  rw [← hp, ho]
  cases offeredBeat s <;> simp [sendBeat, hp]

/-- Everything a step that answers a next state can be: an edge without transfer, a reset edge, a command beat without
or with `Exec`, a response beat (R25, R52, R54, R55, R60, R195). -/
theorem step_cases (s t : State) (h : step s = .next t) :
    ((nextTurn s = .idle ∨ nextTurn s = .transfer ∧ s.phase ≠ .respond ∧ s.cmd = []) ∧
      t = { s with turns := s.turns.tail }) ∨
    (nextTurn s = .reset ∧ t = resetEdge { s with turns := s.turns.tail }) ∨
    (nextTurn s = .transfer ∧ s.phase ≠ .respond ∧ ∃ b rest, s.cmd = b :: rest ∧
      ((b.last = false ∧ t = { capture b { s with cmd := rest, turns := s.turns.tail } with phase := .collect }) ∨
       (b.last = true ∧ execFrame (capture b { s with cmd := rest, turns := s.turns.tail }) = .next t))) ∨
    (nextTurn s = .transfer ∧ s.phase = .respond ∧ ∃ b, offeredBeat s = some b ∧
      t = sendBeat b { s with turns := s.turns.tail }) := by
  cases ht : nextTurn s with
  | idle => rw [step_idle s ht] at h; cases h; simp
  | reset => rw [step_reset s ht] at h; cases h; simp
  | transfer =>
    by_cases hp : s.phase = .respond
    · rw [step_respond s ht hp] at h
      cases hb : offeredBeat s with
      | none => rw [hb] at h; cases h
      | some b => rw [hb] at h; cases h; simp [hp, sendBeat]
    · cases hc : s.cmd with
      | nil => rw [step_hold s ht hp hc] at h; cases h; simp [hp, hc]
      | cons b rest =>
        rw [step_eq, ht] at h
        have h' : acceptBeat b { s with cmd := rest, turns := s.turns.tail } = .next t := by
          revert h; unfold edge transferEdge
          cases hph : s.phase <;> simp_all
        refine .inr (.inr (.inl ⟨rfl, hp, b, rest, rfl, ?_⟩))
        unfold acceptBeat at h'
        cases hl : b.last <;> simp_all

@[simp] theorem runFor_zero (s : State) : runFor 0 s = .next s := rfl

theorem runFor_succ_of_step (n : Nat) (s t : State) (h : step s = .next t) : runFor (n + 1) s = runFor n t := by
  simp [runFor, h]

theorem runFor_add (m n : Nat) (s t : State) (h : runFor m s = .next t) : runFor (m + n) s = runFor n t := by
  induction m generalizing s with
  | zero => cases h; simp
  | succ m ih =>
    rw [Nat.succ_add]
    cases hs : step s with
    | next u =>
      rw [runFor_succ_of_step _ _ _ hs] at h
      rw [runFor_succ_of_step _ _ _ hs]
      exact ih u h
    | fault r => simp [runFor, hs] at h
    | refused r => simp [runFor, hs] at h

end Sys2Proof.Machine
end

