-- ==== Sys2Proof/Tests/Slice0.lean ====
section
/-! SUPPORT. Tests whose expected results are the spec's own (30_encoding.md R85, 95_test_vectors.md), and for every
statement with hypotheses a witness that meets them. -/

namespace Sys2Proof.Tests

open Sys2Proof Sys2Proof.Machine

/-! Well-formedness: each check refuses an ill-formed term -/

/-- Reserved bit 16 set (R85, V14h). -/
theorem test_reserved_bit_refused : headerReservedClear 0x0000000000010003 = false := by decide

/-- Opcode 0x00 and opcode 0x04 (R72, R76). -/
theorem test_unknown_opcode_refused :
    headerOpcodeKnown 0x0000000000000000 = false ∧ headerOpcodeKnown 0x0000000000000004 = false := by decide

/-- `S` set on a transform (R85, V14g). -/
theorem test_s_on_transform_refused : headerSZeroOnTransform 0x0000000000000601 = false := by decide

/-- 31 samples, 33 samples, 3 operands (R72, V14a, V14b, V14j). -/
theorem test_wrong_payload_refused :
    Frame.wellFormed ⟨0x0000000000000001, List.replicate 31 0⟩ = false ∧
    Frame.wellFormed ⟨0x0000000000000002, List.replicate 33 0⟩ = false ∧
    Frame.wellFormed ⟨0x0000000000000603, [0, 0, 0]⟩ = false := by decide

theorem test_good_frames_accepted :
    Frame.wellFormed ⟨0x0000000000000001, List.replicate 32 0⟩ = true ∧
    Frame.wellFormed ⟨0x000000000000FF03, [0, 0]⟩ = true := by decide

/-! Decoding: words written out bit by bit from R71 (OPC bits 7:0, S bits 15:8) -/

theorem test_decode_direct : decode 0b1 = .legal .dctDirect := by decide

theorem test_decode_fast : decode 0b10 = .legal .dctFast := by decide

theorem test_decode_cmp : decode 0b1111111000000011 = .legal (.cmpSig 0b11111110) := by decide

theorem test_decode_table_words :
    decodeTableWord 64 1 = some .dctDirect ∧ decodeTableWord 64 2 = some .dctFast ∧
    decodeTableWord 64 0xFF03 = some (.cmpSig 255) ∧ decodeTableWord 64 0x601 = none ∧
    decodeTableWord 64 (2 ^ 63 + 1) = none := by decide

/-! Arithmetic and rendering, from 95_test_vectors.md -/

/-- V13: 2^-1074 times COSQ[21] rounds to 2^-1074, times COSQ[22] to +0. -/
theorem test_gradual_underflow :
    fmul 0x0000000000000001 (cosq 21) = 0x0000000000000001 ∧ fmul 0x0000000000000001 (cosq 22) = 0 := by
  decide +kernel

/-- V12, V11: overflow to infinity, and the sum of opposite infinities. -/
theorem test_overflow_and_opposite_infinities :
    fadd 0x7FEFFFFFFFFFFFFF 0x7FEFFFFFFFFFFFFF = 0x7FF0000000000000 ∧
    fadd 0x7FF0000000000000 0xFFF0000000000000 = 0x7FF8000000000000 := by decide +kernel

/-- V60, V61: `Render(0.35, 1) = "0.3"`, `Render(0.75, 1) = "0.8"`, `Render(10.0, 1) = "10.0"` (end of part 3). -/
theorem test_render :
    render 0x3FD6666666666666 1 = [.digit 0, .point, .digit 3] ∧
    render 0x3FE8000000000000 1 = [.digit 0, .point, .digit 8] ∧
    render 0x4024000000000000 1 = [.digit 1, .digit 0, .point, .digit 0] := by decide +kernel

/-! One step each -/

/-- A frame of header `h` with `m` payload words received, all but the last beat, which carries `SB[m-1]`. -/
def lastBeat (h : Word) (x : Vector Word 32) : State := { State.reset with sb := x }.withFetchWord 64 h.toNat

/-- The block of V3: `x[5] = 2.0`. -/
def blockV3 : Vector Word 32 := (Vector.replicate 32 0).set 5 0x4000000000000000

def answer (o : Host.Outcome State Fault Refusal) : State :=
  match o with
  | .next t    => t
  | .fault _   => State.reset
  | .refused _ => State.reset

/-- V3, direct unit: status, and bins 2 and 3. -/
theorem test_direct_step :
    (answer (step (lastBeat 1 blockV3))).rstat = 0x0000000000200100 ∧
    (answer (step (lastBeat 1 blockV3))).xb[2] = 0x3FEE2B5D3806F63B ∧
    (answer (step (lastBeat 1 blockV3))).xb[3] = 0xBFB91F65F10DD814 := by decide +kernel

/-- V3, fast unit: status, and bins 2 and 3. -/
theorem test_fast_step :
    (answer (step (lastBeat 2 blockV3))).rstat = 0x0000000000200200 ∧
    (answer (step (lastBeat 2 blockV3))).xb[2] = 0x3FEE2B5D3806F63C ∧
    (answer (step (lastBeat 2 blockV3))).xb[3] = 0xBFB91F65F10DD824 := by decide +kernel

/-- V24, V25: 27.0642806 against 27.0642899 match at S = 8 and not at S = 9. -/
theorem test_cmp_step :
    (answer (step (lastBeat 0x803
      (((Vector.replicate 32 0).set 0 0x403B1074B182C46B).set 1 0x403B10754D89F68E)))).rstat = 0x0000000100020300 ∧
    (answer (step (lastBeat 0x903
      (((Vector.replicate 32 0).set 0 0x403B1074B182C46B).set 1 0x403B10754D89F68E)))).rstat = 0x0000000600020300 := by
  decide +kernel

/-- V51: 9.9 against 10.0 at S = 53 is decided by the length test. -/
theorem test_cmp_length_step :
    (answer (step (lastBeat 0x3503
      (((Vector.replicate 32 0).set 0 0x4023CCCCCCCCCCCD).set 1 0x4024000000000000)))).rstat = 0x0000000400020300 := by
  decide +kernel

/-- V14e: a header-only `DCT.DIRECT` frame. -/
theorem test_header_only_frame :
    (answer (step { State.reset with cmd := [⟨0x0000000000000001, true⟩] })).rstat = 0x0000000000000101 := by decide

/-! Witnesses: states that meet the hypotheses of the statements -/

/-- A block in COLLECT with header `h` and count `n`. -/
def collected (h : Word) (n : BitVec 16) : State := { State.reset with phase := .collect, hdr := h, len := n }

/-- The same with one more beat on offer. -/
def offering (h : Word) (n : BitVec 16) (b : Beat) : State := { collected h n with cmd := [b] }

/-- A block in RESPOND with status `w` and `k` beats sent. -/
def responding (w : Word) (k : Nat) : State := { State.reset with phase := .respond, rstat := w, ridx := k }

theorem witness_DecodeEncodeAgree : decode 0x0000000000000603 = .legal (.cmpSig 6) := by decide

theorem witness_transforms_complete : (collected 1 32).len = 32 ∧ (collected 2 32).len = 32 := by decide

theorem witness_cmp_completes : (collected 0x603 2).len = 2 := by decide

theorem witness_WrongLength :
    (collected 1 31).len ≠ 32 ∧ (collected 2 33).len ≠ 32 ∧ (collected 0x603 1).len ≠ 2 ∧ (collected 3 3).len ≠ 2 := by
  decide

theorem witness_ExecLeavesTheRest :
    (∃ t, exec .dctDirect (collected 1 32) = .next t) ∧ (∃ t, exec .dctFast (collected 2 32) = .next t) ∧
    (∃ t, exec (.cmpSig 6) (collected 0x603 2) = .next t) ∧
    (∃ t, exec .dctDirect (collected 1 31) = .next t ∧ (collected 1 31).len ≠ 32) :=
  ⟨⟨_, rfl⟩, ⟨_, rfl⟩, ⟨_, rfl⟩, ⟨_, rfl, by decide⟩⟩

theorem witness_LastBeat :
    (let s := { State.reset with cmd := [⟨0x603, true⟩] }
     nextTurn s = .transfer ∧ s.phase = .idle ∧ s.cmd = [⟨0x603, true⟩] ∧ decode 0x603 = .legal (.cmpSig 6)) ∧
    (let s := offering 1 31 ⟨0, true⟩
     nextTurn s = .transfer ∧ s.phase = .collect ∧ s.cmd = [⟨0, true⟩] ∧ decode s.hdr = .legal .dctDirect) := by
  decide

theorem witness_IllegalHeader :
    (let s := { State.reset with cmd := [⟨0x7, true⟩] }
     nextTurn s = .transfer ∧ s.phase = .idle ∧ s.cmd = [⟨0x7, true⟩] ∧ legalHeader 0x7 = false) ∧
    (let s := offering 0x601 31 ⟨0, true⟩
     nextTurn s = .transfer ∧ s.phase = .collect ∧ s.cmd = [⟨0, true⟩] ∧ legalHeader s.hdr = false) := by decide

theorem witness_HeaderBeat :
    (let s := { State.reset with cmd := [⟨1, false⟩] }
     s.phase = .idle ∧ nextTurn s = .transfer ∧ s.cmd = [⟨1, false⟩]) ∧
    (let s := { State.reset with cmd := [⟨1, true⟩] }
     s.phase = .idle ∧ nextTurn s = .transfer ∧ s.cmd = [⟨1, true⟩]) := by decide

/-- The statement's clauses at the boundary counts 31, 32 and 0xFFFF. -/
theorem witness_PayloadBeat :
    (let s := offering 1 31 ⟨5, true⟩
     s.phase = .collect ∧ nextTurn s = .transfer ∧ s.cmd = [⟨5, true⟩]) ∧
    (let s := offering 1 32 ⟨5, false⟩
     s.phase = .collect ∧ nextTurn s = .transfer ∧ s.cmd = [⟨5, false⟩]) ∧
    (let s := offering 1 0xFFFF ⟨5, false⟩
     s.phase = .collect ∧ nextTurn s = .transfer ∧ s.cmd = [⟨5, false⟩]) := by decide

theorem witness_ResponseBeat :
    (let s := responding 0x0000000000200100 0
     s.phase = .respond ∧ nextTurn s = .transfer ∧ s.ridx ≤ 32 ∧ s.ridx = 0) ∧
    (let s := responding 0x0000000000200100 32
     s.phase = .respond ∧ nextTurn s = .transfer ∧ s.ridx ≤ 32 ∧ s.ridx = (31 : Fin 32).val + 1) := by decide

theorem witness_ResponseBeyond :
    (responding 0x0000000000200100 33).phase = .respond ∧ nextTurn (responding 0x0000000000200100 33) = .transfer ∧
      32 < (responding 0x0000000000200100 33).ridx := by decide

theorem witness_ResetEdge : nextTurn { responding 0x0000000000200100 7 with turns := [.reset] } = .reset := by decide

theorem witness_EdgeWithoutTransfer :
    nextTurn { responding 0x0000000000200100 7 with turns := [.idle] } = .idle ∧
    (nextTurn (collected 1 5) = .transfer ∧ (collected 1 5).phase ≠ .respond ∧ (collected 1 5).cmd = []) := by decide

/-- Steps that answer a next state, one for each event of R25's table and one for no event; they are the hypotheses of
the rules of the whole machine. -/
theorem witness_steps :
    (∃ t, step { State.reset with cmd := [⟨1, false⟩] } = .next t) ∧
    (∃ t, step { State.reset with cmd := [⟨7, true⟩] } = .next t) ∧
    (∃ t, step (offering 1 3 ⟨9, false⟩) = .next t) ∧
    (∃ t, step (offering 1 31 ⟨9, true⟩) = .next t) ∧
    (∃ t, step (responding 0x0000000000200100 3) = .next t) ∧
    (∃ t, step (responding 0x0000000000000702 0) = .next t) ∧
    (∃ t, step { collected 1 3 with turns := [.reset] } = .next t) ∧
    (∃ t, step { collected 1 3 with turns := [.idle] } = .next t) :=
  ⟨⟨_, rfl⟩, ⟨_, rfl⟩, ⟨_, rfl⟩, ⟨_, rfl⟩, ⟨_, rfl⟩, ⟨_, rfl⟩, ⟨_, rfl⟩, ⟨_, rfl⟩⟩

theorem witness_OnlyPayloadBeatsWriteSamples :
    ∃ t, step (offering 1 3 ⟨9, false⟩) = .next t ∧ nextTurn (offering 1 3 ⟨9, false⟩) ≠ .reset ∧
      t.sb ≠ (offering 1 3 ⟨9, false⟩).sb := ⟨_, rfl, by decide, by decide⟩

/-- V1's block: an impulse, whose coefficients are not the zeros that XB held. -/
def impulse : Vector Word 32 := (Vector.replicate 32 0).set 0 0x3FF0000000000000

theorem witness_OnlySuccessfulTransforms :
    ∃ t, step (lastBeat 1 impulse) = .next t ∧ nextTurn (lastBeat 1 impulse) ≠ .reset ∧
      t.xb ≠ (lastBeat 1 impulse).xb := by
  refine ⟨_, rfl, by decide, fun h => ?_⟩
  have h0 : (dctDirect impulse)[0] = (0 : Word) := congrArg (fun v : Vector Word 32 => v[0]) h
  exact absurd h0 (by decide +kernel)

theorem witness_HeaderLatched :
    nextEvent { State.reset with cmd := [⟨1, false⟩] } = some (.cmdBeat ⟨1, false⟩) ∧ State.reset.phase = .idle ∧
    (collected 1 3).phase ≠ .idle ∧ nextEvent (collected 1 3) = none := by decide

theorem witness_PayloadCount :
    nextEvent (offering 1 0xFFFF ⟨9, false⟩) = some (.cmdBeat ⟨9, false⟩) ∧
    (offering 1 0xFFFF ⟨9, false⟩).phase ≠ .idle ∧ nextTurn (offering 1 0xFFFF ⟨9, false⟩) ≠ .reset := by decide

/-- A block in RESPOND with an INVALID_LENGTH status for 31 samples (V14a). -/
def invalidLengthStatus : State := { responding 0x00000000001F0101 0 with hdr := 1, len := 31 }

/-- A block in RESPOND with the last beat of a good `DCT.FAST` to send. -/
def lastDataBeat : State := { responding 0x0000000000200200 32 with hdr := 2, len := 32 }

theorem witness_StatusInv : StatusInv invalidLengthStatus ∧ StatusInv lastDataBeat := ⟨by decide, by decide⟩

theorem witness_ResponseInv :
    (let s := { responding 0x0000000000000702 0 with hdr := 7 }
     s.phase = .respond ∧ ResponseInv s) ∧
    (let s := { responding 0x0000000000200100 1 with hdr := 1, len := 32, xb := dctDirect State.reset.sb }
     s.phase = .respond ∧ responseBeats s.rstat = 33 ∧ ResponseInv s) :=
  ⟨⟨rfl, fun _ => ⟨by decide, by decide, fun h => absurd h (by decide)⟩⟩,
    ⟨rfl, by decide, fun _ => ⟨by decide, by decide, fun _ => rfl⟩⟩⟩

theorem witness_RunAnswersEveryFrame :
    let s := { State.reset with cmd := frameBeats ⟨7, [5]⟩, turns := [.transfer, .idle, .transfer, .transfer] }
    s.phase = .idle ∧ s.cmd = [⟨7, [5]⟩].flatMap frameBeats ∧ Turn.reset ∉ s.turns ∧
      s.turns.count .transfer = ([⟨7, [5]⟩].map (exchangeBeats s.cfg)).sum := by decide

theorem witness_IdleBlocks :
    let s₁ := { State.reset with cmd := [⟨7, true⟩] }
    let s₂ := { State.reset with cmd := [⟨7, true⟩], hdr := 1, rstat := 9, ridx := 5, len := 3 }
    s₁.phase = .idle ∧ s₂.phase = .idle ∧ s₁.cfg = s₂.cfg ∧ s₁.cmd = s₂.cmd ∧ s₁.turns = s₂.turns ∧ s₁.rsp = s₂.rsp ∧
      ∃ t, runFor 2 s₁ = .next t := ⟨rfl, rfl, rfl, rfl, rfl, rfl, _, rfl⟩

/-- The clauses at the overflow threshold and just below it, at 2^-1075, and a tie: 2^-1075 is as far from +0 as from
2^-1074. -/
theorem witness_Rounding :
    2 * 1 ≤ 2 ^ 1 ∧
    (0 < (2 ^ 1024 - 2 ^ 970) * 2 ^ (1074 + 0) ∧
      (2 ^ 1024 - 2 ^ 970) * 2 ^ (1074 + 0) ≤ (2 ^ 1024 - 2 ^ 970) * 2 ^ (1074 + 0)) ∧
    (0 < (2 ^ 1024 - 2 ^ 970) * 2 ^ (1074 + 0) - 1 ∧
      (2 ^ 1024 - 2 ^ 970) * 2 ^ (1074 + 0) - 1 < (2 ^ 1024 - 2 ^ 970) * 2 ^ (1074 + 0)) ∧
    (isFinite 1 = true ∧ magnitude (round64 false 1 1) = 0 ∧ magnitude 1 ≠ magnitude (round64 false 1 1) ∧
      (magnitude (round64 false 1 1) : Int) * 2 ^ 1 - 1 = -((magnitude 1 : Int) * 2 ^ 1 - 1)) := by decide +kernel

/-- 1.0 and 2.0, where all three results are finite and none is zero. -/
theorem witness_FiniteSums :
    isFinite 0x3FF0000000000000 = true ∧ isFinite 0x4000000000000000 = true ∧
    fixed 0x3FF0000000000000 + fixed 0x4000000000000000 ≠ 0 ∧ fixed 0x3FF0000000000000 - fixed 0x4000000000000000 ≠ 0 ∧
    fixed 0x3FF0000000000000 * fixed 0x4000000000000000 ≠ 0 ∧
    isFinite (fadd 0x3FF0000000000000 0x4000000000000000) = true ∧
    isFinite (fsub 0x3FF0000000000000 0x4000000000000000) = true ∧
    isFinite (fmul 0x3FF0000000000000 0x4000000000000000) = true := by decide +kernel

/-- The largest finite value and a negative one: the exact sum and product overflow; the least subnormal squared: the
exact product underflows. -/
theorem witness_FiniteSums_edges :
    isFinite 0x7FEFFFFFFFFFFFFF = true ∧ isFinite 0xFFEFFFFFFFFFFFFF = true ∧ isFinite 0x0000000000000001 = true ∧
    fixed 0x7FEFFFFFFFFFFFFF + fixed 0x7FEFFFFFFFFFFFFF ≠ 0 ∧ fixed 0xFFEFFFFFFFFFFFFF - fixed 0x7FEFFFFFFFFFFFFF ≠ 0 ∧
    fixed 0x7FEFFFFFFFFFFFFF * fixed 0xFFEFFFFFFFFFFFFF ≠ 0 ∧ fixed 0x0000000000000001 * fixed 0x0000000000000001 ≠ 0 := by
  decide +kernel

/-- R93's rows with an infinity: one beside a zero, beside the least subnormal, beside each infinity. -/
theorem witness_InfinityRows :
    isInf 0xFFF0000000000000 = true ∧ isZero 0x8000000000000000 = true ∧
    isNaN 0x0000000000000001 = false ∧ isZero 0x0000000000000001 = false ∧ isFinite 0x0000000000000001 = true ∧
    isInf 0x7FF0000000000000 = true ∧ signBit 0xFFF0000000000000 ≠ signBit 0x7FF0000000000000 := by decide

theorem witness_ArithmeticConsequences :
    isZero 0x8000000000000000 = true ∧ isFinite 0x7FEFFFFFFFFFFFFF = true ∧ isNaN 0x7FF0000000000000 = false ∧
    (0x0000000000000001 : Word) ≠ zeroOf true ∧ isNaN (fmul 0x0000000000000001 0x3FF0000000000000) = false := by
  decide +kernel

theorem witness_EveryNaN :
    isNaN (fadd 0x7FF0000000000000 0xFFF0000000000000) = true ∧
    isNaN (fsub 0x7FF0000000000000 0x7FF0000000000000) = true ∧
    isNaN (fmul 0x0000000000000000 0xFFF0000000000000) = true ∧ isNaN 0x7FF0000000000001 = true := by decide +kernel

theorem witness_SubnormalSums : expField 0x800FFFFFFFFFFFFF = 0 ∧ expField 0x0000000000000001 = 0 := by decide

theorem witness_Cosine : (32 : Nat) ≤ 32 ∧ isFinite 0xBFF0000000000000 = true := by decide

theorem witness_DirectZeros : ∀ n : Fin 32, isZero (Vector.replicate 32 (0x8000000000000000 : Word))[n] = true := by
  decide

theorem witness_OneNaN : isNaN ((Vector.replicate 32 (0 : Word)).set 31 0xFFF8000000000123)[(31 : Fin 32)] = true := by
  decide

theorem witness_OneInfinity :
    isInf ((Vector.replicate 32 (0 : Word)).set 3 0x7FF0000000000000)[(3 : Fin 32)] = true ∧
    (∀ n : Fin 32, n ≠ 3 → isFinite ((Vector.replicate 32 (0 : Word)).set 3 0x7FF0000000000000)[n] = true) ∧
    isFinite (((List.finRange 32).take 3).foldl
      (dctMac ((Vector.replicate 32 (0 : Word)).set 3 0x7FF0000000000000) 7) 0) = true := by decide +kernel

theorem witness_Rendering : isFinite 0x7FEFFFFFFFFFFFFF = true ∧ 1 ≤ 1 := by decide

/-- Operands that pass the sign test, each with the clause that decides by R154 and R155 at P = 1: 1.0 is "1.0" and 10.0
is "10.0", so S = 4 is the first S with REASON 2 and S = 2 the first with REASON 3; at S = 1 the two match. -/
theorem witness_LengthAndDigitTests :
    isFinite 0x3FF0000000000000 = true ∧ isFinite 0x4024000000000000 = true ∧
    signBit 0x3FF0000000000000 = signBit 0x4024000000000000 ∧
    align (render 0x3FF0000000000000 1) (render 0x4024000000000000 1) =
      ([.digit 1, .point, .digit 0], [.digit 1, .digit 0, .point, .digit 0]) ∧
    cmpSig 0x3FF0000000000000 0x4024000000000000 4 1 = .tooShort ∧
    cmpSig 0x3FF0000000000000 0x4024000000000000 3 1 = .digitsDiffer ∧
    cmpSig 0x3FF0000000000000 0x4024000000000000 2 1 = .digitsDiffer ∧
    cmpSig 0x3FF0000000000000 0x4024000000000000 1 1 = .agree := by decide +kernel

theorem witness_LengthTest : (1 : Nat) ≤ 50 ∧ (52 : Nat) ≤ 50 + 2 := by decide

/-- 0.5 and 1.0 at P = 1. -/
theorem witness_StraddlingOne :
    scaledRound 0x3FE0000000000000 1 < 10 ^ 1 ∧ 10 ^ 1 ≤ scaledRound 0x3FF0000000000000 1 := by decide +kernel

theorem witness_ZeroMatches :
    isZero 0x8000000000000000 = true ∧ isFinite 0x3FF0000000000000 = true ∧ (1 : Nat) ≤ 50 ∧ (1 : Nat) ≤ 1 := by decide

end Sys2Proof.Tests
end

section
/-! SUPPORT. What one captured beat, one `Exec` and one step can do, in the terms the rules of the state are made in. -/

namespace Sys2Proof.Machine

/-! A captured beat -/

theorem capture_of_idle (b : Beat) (s : State) (h : s.phase = .idle) : capture b s = captureHeader b.data s :=
  if_pos h

theorem capture_of_collect (b : Beat) (s : State) (h : s.phase = .collect) : capture b s = capturePayload b.data s :=
  if_neg (by simp [h])

/-- A beat is captured into HDR, LEN and SB only (R54, R55). -/
theorem capture_frame (b : Beat) (s : State) :
    (capture b s).xb = s.xb ∧ (capture b s).cfg = s.cfg ∧ (capture b s).cmd = s.cmd ∧ (capture b s).rsp = s.rsp ∧
      (capture b s).turns = s.turns := by
  unfold capture
  split <;> simp

/-! `Exec` of the header held in HDR (R58, R171 to R173) -/

theorem execFrame_of_legal (s : State) (i : Instr) (h : decode s.hdr = .legal i) : execFrame s = exec i s := by
  simp only [execFrame, h]

theorem execFrame_of_illegal (s : State) (why : Reject) (h : decode s.hdr = .illegal why) :
    execFrame s = .next (raise .illegalCommand s) := by
  simp only [execFrame, h]

/-- A legal header other than `CMP.SIG` is a transform's; which one, `transformOf` reads from it. -/
theorem execFrame_transform (s : State) (i : Instr) (hd : decode s.hdr = .legal i) (hopc : headerOpc s.hdr ≠ 0x03) :
    execFrame s =
      .next (if s.len = 32 then completeTransform (transformOf s.hdr s.sb) s else raise .invalidLength s) := by
  rw [execFrame_of_legal s i hd]
  obtain ⟨rfl, h⟩ | ⟨rfl, h⟩ | ⟨-, h⟩ := decode_legal_opc s.hdr i hd
  · have hx : transformOf s.hdr s.sb = dctDirect s.sb := if_pos h
    rw [hx]
    exact (apply_ite Host.Outcome.next _ _ _).symm
  · have hx : transformOf s.hdr s.sb = dctFast s.sb := if_neg (by simp [h])
    rw [hx]
    exact (apply_ite Host.Outcome.next _ _ _).symm
  · exact absurd h hopc

theorem execFrame_compare (s : State) (i : Instr) (hd : decode s.hdr = .legal i) (hopc : headerOpc s.hdr = 0x03) :
    execFrame s =
      .next (if s.len = 2 then completeCompare (cmpSig s.sb[0] s.sb[1] (headerS s.hdr).toNat s.cfg.pFrac) s
        else raise .badOperandCount s) := by
  rw [execFrame_of_legal s i hd]
  obtain ⟨-, h⟩ | ⟨-, h⟩ | ⟨rfl, -⟩ := decode_legal_opc s.hdr i hd
  · simp [h] at hopc
  · simp [h] at hopc
  · exact (apply_ite Host.Outcome.next _ _ _).symm

/-- An error is answered by the status beat alone (R59). -/
theorem responseBeats_error (e : CmdError) (opc : BitVec 8) (len : BitVec 16) (m : BitVec 1) (r : BitVec 3) :
    responseBeats (statusWord e.code opc len m r) = 1 := by
  cases e <;> simp [CmdError.code, statusOk]

/-- XB after `Exec` is what it was, or the transform that HDR names of 32 samples (R22, R58). -/
theorem execFrame_xb (s t : State) (h : execFrame s = .next t) :
    t.xb = s.xb ∨ (s.len = 32 ∧ responseBeats t.rstat = 33 ∧ t.xb = transformOf s.hdr s.sb) := by
  cases hd : decode s.hdr with
  | illegal why => rw [execFrame_of_illegal s why hd] at h; cases h; simp
  | legal i =>
    by_cases hopc : headerOpc s.hdr = 0x03
    · rw [execFrame_compare s i hd hopc] at h
      cases h
      split <;> simp
    · rw [execFrame_transform s i hd hopc] at h
      cases h
      split
      · next hl =>
        have ht : headerOpc s.hdr = 0x01 ∨ headerOpc s.hdr = 0x02 := by
          obtain ⟨-, h1⟩ | ⟨-, h2⟩ | ⟨-, h3⟩ := decode_legal_opc s.hdr i hd
          · exact .inl h1
          · exact .inr h2
          · exact absurd h3 hopc
        exact .inr ⟨hl, by rw [completeTransform_rstat, responseBeats_statusWord, if_pos ⟨rfl, ht⟩], rfl⟩
      · simp

/-! A command beat -/

theorem acceptBeat_of_last (b : Beat) (s : State) (h : b.last = true) : acceptBeat b s = execFrame (capture b s) :=
  if_pos h

theorem acceptBeat_of_not_last (b : Beat) (s : State) (h : b.last = false) :
    acceptBeat b s = .next { capture b s with phase := .collect } :=
  if_neg (by simp [h])

/-- A command beat leads to RESPOND or COLLECT by its last-flag; HDR, LEN and SB are as captured (R25, R54, R55). -/
theorem acceptBeat_next (b : Beat) (s t : State) (h : acceptBeat b s = .next t) :
    t.phase = (if b.last then .respond else .collect) ∧ t.hdr = (capture b s).hdr ∧ t.len = (capture b s).len ∧
      t.sb = (capture b s).sb ∧ t.cfg = s.cfg := by
  obtain ⟨-, hcfg, -⟩ := capture_frame b s
  cases hl : b.last with
  | false => rw [acceptBeat_of_not_last b s hl] at h; cases h; simp [hcfg]
  | true =>
    obtain ⟨u, hu, hphase, -, hhdr, hlen, hsb, hcfg', -⟩ := execFrame_next (capture b s)
    rw [acceptBeat_of_last b s hl, hu] at h
    cases h
    simp [*]

/-- A command beat in IDLE is a header (R54). -/
theorem acceptBeat_idle (b : Beat) (s t : State) (h : acceptBeat b s = .next t) (hp : s.phase = .idle) :
    t.hdr = b.data ∧ t.len = 0 ∧ t.sb = s.sb := by
  obtain ⟨-, hhdr, hlen, hsb, -⟩ := acceptBeat_next b s t h
  rw [capture_of_idle b s hp] at hhdr hlen hsb
  exact ⟨hhdr, hlen, hsb⟩

/-- A command beat in COLLECT is a payload beat (R55). -/
theorem acceptBeat_collect (b : Beat) (s t : State) (h : acceptBeat b s = .next t) (hp : s.phase = .collect) :
    t.hdr = s.hdr ∧ t.len = nextLen s.len ∧ t.sb = storeSample b.data s.len s.sb := by
  obtain ⟨-, hhdr, hlen, hsb, -⟩ := acceptBeat_next b s t h
  rw [capture_of_collect b s hp] at hhdr hlen hsb
  exact ⟨hhdr, hlen, hsb⟩

/-- XB after a command beat is what it was, or the transform that HDR names of 32 samples (R22, R41). -/
theorem acceptBeat_xb (b : Beat) (s t : State) (h : acceptBeat b s = .next t) :
    t.xb = s.xb ∨
      (t.phase = .respond ∧ t.len = 32 ∧ responseBeats t.rstat = 33 ∧ t.xb = transformOf t.hdr t.sb) := by
  obtain ⟨hphase, hhdr, hlen, hsb, -⟩ := acceptBeat_next b s t h
  obtain ⟨hxb, -⟩ := capture_frame b s
  cases hl : b.last with
  | false => rw [acceptBeat_of_not_last b s hl] at h; cases h; exact .inl hxb
  | true =>
    rw [acceptBeat_of_last b s hl] at h
    rw [hhdr, hlen, hsb, hphase, hl, ← hxb]
    simpa using execFrame_xb (capture b s) t h

/-! A step and its event -/

theorem nextTurn_eq_reset_iff (s : State) : nextTurn s = .reset ↔ nextEvent s = some .resetEdge := by
  unfold nextEvent
  cases nextTurn s <;> cases s.phase <;> simp

/-- The step that takes a command beat (R54, R55). -/
theorem step_command (s : State) (b : Beat) (rest : List Beat) (h : nextTurn s = .transfer) (hp : s.phase ≠ .respond)
    (hc : s.cmd = b :: rest) : step s = acceptBeat b { s with cmd := rest, turns := s.turns.tail } := by
  rw [step_eq, h]
  cases hph : s.phase with
  | respond => exact absurd hph hp
  | idle => simp [edge, transferEdge, hc]
  | collect => simp [edge, transferEdge, hc]

/-- Everything a step that answers a next state can be, by its event (R25, R52, R195). -/
theorem step_event_cases (s t : State) (h : step s = .next t) :
    (nextEvent s = none ∧ t = { s with turns := s.turns.tail }) ∨
    (nextEvent s = some .resetEdge ∧ t = resetEdge { s with turns := s.turns.tail }) ∨
    (∃ b rest, nextEvent s = some (.cmdBeat b) ∧ s.phase ≠ .respond ∧
      acceptBeat b { s with cmd := rest, turns := s.turns.tail } = .next t) ∨
    (∃ b, nextEvent s = some (.rspBeat b) ∧ s.phase = .respond ∧
      t = sendBeat b { s with turns := s.turns.tail }) := by
  obtain ⟨hquiet, ht⟩ | ⟨hr, ht⟩ | ⟨hn, hp, b, rest, hc, -⟩ | ⟨hn, hp, b, hb, ht⟩ := step_cases s t h
  · refine .inl ⟨?_, ht⟩
    obtain hi | ⟨hn, hp, hc⟩ := hquiet
    · simp [nextEvent, hi]
    · cases hph : s.phase <;> simp_all [nextEvent]
  · exact .inr (.inl ⟨(nextTurn_eq_reset_iff s).1 hr, ht⟩)
  · refine .inr (.inr (.inl ⟨b, rest, ?_, hp, step_command s b rest hn hp hc ▸ h⟩))
    cases hph : s.phase <;> simp_all [nextEvent]
  · exact .inr (.inr (.inr ⟨b, by simp [nextEvent, hn, hp, hb], hp, ht⟩))

theorem runFor_succ_cases (n : Nat) (s t : State) (h : runFor (n + 1) s = .next t) :
    ∃ u, step s = .next u ∧ runFor n u = .next t := by
  cases hs : step s with
  | next u => exact ⟨u, rfl, runFor_succ_of_step n s u hs ▸ h⟩
  | fault r => simp [runFor, hs] at h
  | refused r => simp [runFor, hs] at h

end Sys2Proof.Machine
end

section
/-! SUPPORT. Two blocks that no host can tell apart (R38, R39): what has to agree in each phase, and that every step
keeps it. -/

namespace Sys2Proof.Machine

/-- The build and everything the host holds agree. -/
structure SameHost (s₁ s₂ : State) : Prop where
  cfg : s₁.cfg = s₂.cfg
  cmd : s₁.cmd = s₂.cmd
  rsp : s₁.rsp = s₂.rsp
  turns : s₁.turns = s₂.turns

/-- The part of the frame in progress that has been received agrees: of SB only the first LEN elements. -/
structure SameFrame (s₁ s₂ : State) : Prop where
  hdr : s₁.hdr = s₂.hdr
  len : s₁.len = s₂.len
  samples : ∀ i : Fin 32, i.val < s₁.len.toNat → s₁.sb[i] = s₂.sb[i]

/-- The response in progress agrees: XB only where data beats are to follow. -/
structure SameResponse (s₁ s₂ : State) : Prop where
  rstat : s₁.rstat = s₂.rstat
  ridx : s₁.ridx = s₂.ridx
  unfinished : s₁.ridx < responseBeats s₁.rstat
  coefficients : responseBeats s₁.rstat = 33 → s₁.xb = s₂.xb

/-- The two blocks are in one phase and agree in all that this phase can still show (R38, R39). -/
structure Alike (s₁ s₂ : State) : Prop where
  phase : s₁.phase = s₂.phase
  host : SameHost s₁ s₂
  frame : s₁.phase = .collect → SameFrame s₁ s₂
  response : s₁.phase = .respond → SameResponse s₁ s₂

variable {s₁ s₂ t₁ : State}

/-- In IDLE the host's side is all that counts. -/
theorem Alike.of_idle (h₁ : s₁.phase = .idle) (h₂ : s₂.phase = .idle) (host : SameHost s₁ s₂) : Alike s₁ s₂ where
  phase := h₁.trans h₂.symm
  host := host
  frame h := by simp [h₁] at h
  response h := by simp [h₁] at h

theorem SameHost.tail (h : SameHost s₁ s₂) :
    SameHost { s₁ with turns := s₁.turns.tail } { s₂ with turns := s₂.turns.tail } where
  cfg := h.cfg
  cmd := h.cmd
  rsp := h.rsp
  turns := congrArg List.tail h.turns

theorem SameHost.nextTurn_eq (h : SameHost s₁ s₂) : nextTurn s₁ = nextTurn s₂ := by
  rw [nextTurn, nextTurn, h.turns]

/-! Capturing a beat -/

theorem SameHost.capture (b : Beat) (h : SameHost s₁ s₂) : SameHost (capture b s₁) (capture b s₂) := by
  obtain ⟨-, hcfg₁, hcmd₁, hrsp₁, hturns₁⟩ := capture_frame b s₁
  obtain ⟨-, hcfg₂, hcmd₂, hrsp₂, hturns₂⟩ := capture_frame b s₂
  obtain ⟨hcfg, hcmd, hrsp, hturns⟩ := h
  exact ⟨by simp [*], by simp [*], by simp [*], by simp [*]⟩

theorem SameFrame.captureHeader (d : Word) (s₁ s₂ : State) : SameFrame (captureHeader d s₁) (captureHeader d s₂) where
  hdr := rfl
  len := rfl
  samples i hi := by simp at hi

theorem SameFrame.capturePayload (d : Word) (h : SameFrame s₁ s₂) :
    SameFrame (capturePayload d s₁) (capturePayload d s₂) where
  hdr := h.hdr
  len := by simp [h.len]
  samples i hi := by
    rw [capturePayload_len, nextLen_toNat] at hi
    simp only [capturePayload_sb, storeSample_getElem, ← h.len]
    split
    · rfl
    · exact h.samples i (by omega)

/-- After a command beat the received parts agree: a header starts a frame, a payload beat adds to one that agrees. -/
theorem Alike.capture (b : Beat) (h : Alike s₁ s₂) (hp : s₁.phase ≠ .respond) :
    SameFrame (capture b s₁) (capture b s₂) := by
  cases hph : s₁.phase with
  | respond => exact absurd hph hp
  | idle =>
    rw [capture_of_idle b s₁ hph, capture_of_idle b s₂ (h.phase ▸ hph)]
    exact SameFrame.captureHeader b.data s₁ s₂
  | collect =>
    rw [capture_of_collect b s₁ hph, capture_of_collect b s₂ (h.phase ▸ hph)]
    exact (h.frame hph).capturePayload b.data

/-! `Exec` -/

/-- 32 samples received are the whole buffer. -/
theorem SameFrame.sb_eq (h : SameFrame s₁ s₂) (hl : s₁.len = 32) : s₁.sb = s₂.sb :=
  Vector.ext fun i hi => h.samples ⟨i, hi⟩ (by simpa [hl] using hi)

theorem Alike.respond (w : Word) (host : SameHost s₁ s₂) (hx : responseBeats w = 33 → s₁.xb = s₂.xb) :
    Alike (respond w s₁) (respond w s₂) where
  phase := rfl
  host := ⟨host.cfg, host.cmd, host.rsp, host.turns⟩
  frame h := by simp at h
  response _ :=
    { rstat := rfl
      ridx := rfl
      unfinished := by
        have := responseBeats_eq w
        simp only [respond_ridx, respond_rstat]
        omega
      coefficients := hx }

theorem Alike.raise (e : CmdError) (host : SameHost s₁ s₂) (f : SameFrame s₁ s₂) :
    Alike (raise e s₁) (raise e s₂) := by
  unfold Machine.raise
  rw [← f.hdr, ← f.len]
  refine Alike.respond _ host fun h => ?_
  rw [responseBeats_error] at h
  cases h

theorem Alike.completeTransform (x : Vector Word 32) (host : SameHost s₁ s₂) (f : SameFrame s₁ s₂) :
    Alike (completeTransform x s₁) (completeTransform x s₂) := by
  unfold Machine.completeTransform
  rw [← f.hdr, ← f.len]
  exact Alike.respond _ ⟨host.cfg, host.cmd, host.rsp, host.turns⟩ fun _ => rfl

/-- A comparison answers with the status beat alone, so what is left in XB is never sent. -/
theorem Alike.completeCompare (v : Verdict) (host : SameHost s₁ s₂) (f : SameFrame s₁ s₂)
    (hopc : headerOpc s₁.hdr = 0x03) : Alike (completeCompare v s₁) (completeCompare v s₂) := by
  unfold Machine.completeCompare
  rw [← f.hdr, ← f.len]
  refine Alike.respond _ host fun h => ?_
  simp [hopc] at h

/-- `Exec` of the same frame: no instruction reads beyond the samples received. -/
theorem SameFrame.execFrame (f : SameFrame s₁ s₂) (host : SameHost s₁ s₂) (h : execFrame s₁ = .next t₁) :
    ∃ t₂, execFrame s₂ = .next t₂ ∧ Alike t₁ t₂ := by
  cases hd : decode s₁.hdr with
  | illegal why =>
    rw [execFrame_of_illegal s₁ why hd] at h
    cases h
    exact ⟨_, execFrame_of_illegal s₂ why (f.hdr ▸ hd), Alike.raise _ host f⟩
  | legal i =>
    by_cases hopc : headerOpc s₁.hdr = 0x03
    · rw [execFrame_compare s₁ i hd hopc] at h
      cases h
      refine ⟨_, execFrame_compare s₂ i (f.hdr ▸ hd) (f.hdr ▸ hopc), ?_⟩
      rw [← f.len]
      split
      · next hl =>
        have h0 : s₁.sb[0] = s₂.sb[0] := f.samples 0 (by simp [hl])
        have h1 : s₁.sb[1] = s₂.sb[1] := f.samples 1 (by simp [hl])
        rw [h0, h1, host.cfg, f.hdr]
        exact Alike.completeCompare _ host f hopc
      · exact Alike.raise _ host f
    · rw [execFrame_transform s₁ i hd hopc] at h
      cases h
      refine ⟨_, execFrame_transform s₂ i (f.hdr ▸ hd) (f.hdr ▸ hopc), ?_⟩
      rw [← f.len]
      split
      · next hl =>
        rw [f.sb_eq hl, f.hdr]
        exact Alike.completeTransform _ host f
      · exact Alike.raise _ host f

/-! The events of a step -/

theorem Alike.acceptBeat (b : Beat) (h : Alike s₁ s₂) (hp : s₁.phase ≠ .respond)
    (ht : acceptBeat b s₁ = .next t₁) : ∃ t₂, acceptBeat b s₂ = .next t₂ ∧ Alike t₁ t₂ := by
  have host := h.host.capture b
  have f := h.capture b hp
  cases hl : b.last with
  | true =>
    rw [acceptBeat_of_last b s₁ hl] at ht
    rw [acceptBeat_of_last b s₂ hl]
    exact f.execFrame host ht
  | false =>
    rw [acceptBeat_of_not_last b s₁ hl] at ht
    cases ht
    exact ⟨_, acceptBeat_of_not_last b s₂ hl,
      { phase := rfl
        host := ⟨host.cfg, host.cmd, host.rsp, host.turns⟩
        frame := fun _ => ⟨f.hdr, f.len, f.samples⟩
        response := nofun }⟩

/-- The beat offered agrees: with a status of one beat only RSTAT is offered, never a word of XB. -/
theorem SameResponse.offeredBeat_eq (h : SameResponse s₁ s₂) : offeredBeat s₁ = offeredBeat s₂ := by
  have hword : responseWord s₁ = responseWord s₂ := by
    unfold responseWord
    rw [← h.ridx, ← h.rstat]
    split
    · rfl
    · have := h.unfinished
      rw [h.coefficients (by have := responseBeats_eq s₁.rstat; omega)]
  rw [offeredBeat, offeredBeat, hword, h.ridx, h.rstat]

theorem Alike.sendBeat {b : Beat} (h : Alike s₁ s₂) (hp : s₁.phase = .respond) (hb : offeredBeat s₁ = some b) :
    Alike (sendBeat b s₁) (sendBeat b s₂) := by
  obtain ⟨-, hlast⟩ := offeredBeat_some s₁ b hb
  have hr := h.response hp
  have host : SameHost (Machine.sendBeat b s₁) (Machine.sendBeat b s₂) :=
    ⟨h.host.cfg, h.host.cmd, congrArg (· ++ [b]) h.host.rsp, h.host.turns⟩
  cases hl : b.last with
  | true => exact Alike.of_idle (by simp [hl]) (by simp [hl]) host
  | false =>
    have hne : s₁.ridx + 1 ≠ responseBeats s₁.rstat := by simpa [hl] using hlast.symm
    have := hr.unfinished
    exact
      { phase := by simp [hl, h.phase]
        host := host
        frame := by simp [hl, hp]
        response := fun _ => ⟨hr.rstat, congrArg (· + 1) hr.ridx,
          by simp only [sendBeat_ridx, sendBeat_rstat]; omega, hr.coefficients⟩ }

/-- Taking an entry off the schedule of both. -/
theorem Alike.tail (h : Alike s₁ s₂) :
    Alike { s₁ with turns := s₁.turns.tail } { s₂ with turns := s₂.turns.tail } where
  phase := h.phase
  host := h.host.tail
  frame hp := ⟨(h.frame hp).hdr, (h.frame hp).len, (h.frame hp).samples⟩
  response hp := ⟨(h.response hp).rstat, (h.response hp).ridx, (h.response hp).unfinished, (h.response hp).coefficients⟩

/-- Every step of the first is matched by a step of the second, and the two stay alike. -/
theorem Alike.step (h : Alike s₁ s₂) (hs : step s₁ = .next t₁) : ∃ t₂, step s₂ = .next t₂ ∧ Alike t₁ t₂ := by
  have hturn := h.host.nextTurn_eq
  obtain ⟨hquiet, rfl⟩ | ⟨hr, rfl⟩ | ⟨hn, hp, b, rest, hc, -⟩ | ⟨hn, hp, b, hb, rfl⟩ := step_cases s₁ t₁ hs
  · obtain hi | ⟨hn, hp, hc⟩ := hquiet
    · exact ⟨_, step_idle s₂ (hturn ▸ hi), h.tail⟩
    · exact ⟨_, step_hold s₂ (hturn ▸ hn) (h.phase ▸ hp) (h.host.cmd ▸ hc), h.tail⟩
  · have host := h.host.tail
    exact ⟨_, step_reset s₂ (hturn ▸ hr), Alike.of_idle rfl rfl ⟨host.cfg, host.cmd, host.rsp, host.turns⟩⟩
  · rw [step_command s₁ b rest hn hp hc] at hs
    rw [step_command s₂ b rest (hturn ▸ hn) (h.phase ▸ hp) (h.host.cmd ▸ hc)]
    obtain ⟨hphase, host, hframe, -⟩ := h.tail
    have hrest : Alike { s₁ with cmd := rest, turns := s₁.turns.tail }
        { s₂ with cmd := rest, turns := s₂.turns.tail } :=
      { phase := hphase
        host := ⟨host.cfg, rfl, host.rsp, host.turns⟩
        frame := fun hp => ⟨(hframe hp).hdr, (hframe hp).len, (hframe hp).samples⟩
        response := fun hp' => absurd hp' hp }
    exact hrest.acceptBeat b hp hs
  · have hb₂ : offeredBeat s₂ = some b := (h.response hp).offeredBeat_eq ▸ hb
    refine ⟨_, ?_, h.tail.sendBeat hp hb⟩
    rw [step_respond s₂ (hturn ▸ hn) (h.phase ▸ hp), hb₂]
    simp [Machine.sendBeat, h.phase ▸ hp]

theorem Alike.runFor (n : Nat) (h : Alike s₁ s₂) (hr : runFor n s₁ = .next t₁) :
    ∃ t₂, runFor n s₂ = .next t₂ ∧ Alike t₁ t₂ := by
  induction n generalizing s₁ s₂ with
  | zero => cases hr; exact ⟨s₂, rfl, h⟩
  | succ n ih =>
    obtain ⟨u₁, hu₁, hr⟩ := runFor_succ_cases n s₁ t₁ hr
    obtain ⟨u₂, hu₂, hu⟩ := h.step hu₁
    rw [runFor_succ_of_step n s₂ u₂ hu₂]
    exact ih hu hr

end Sys2Proof.Machine
end

section
/-! PROOFS. The statements about the state (10_state.md). -/

namespace Sys2Proof.Proofs

open Sys2Proof.Machine

/-- Settles O34: the blocks are alike in IDLE, and every step keeps them alike. -/
theorem idleBlocksAreIndistinguishable : Obligations.IdleBlocksAreIndistinguishable := by
  intro n s₁ s₂ t₁ h₁ h₂ hcfg hcmd hturns hrsp hrun
  obtain ⟨t₂, hrun₂, hal⟩ := (Alike.of_idle h₁ h₂ ⟨hcfg, hcmd, hrsp, hturns⟩).runFor n hrun
  exact ⟨t₂, hrun₂, hal.host.rsp, hal.host.cmd, hal.phase⟩

/-- Settles O23, event by event. -/
theorem phaseMovesOnlyAsTheTable : Obligations.PhaseMovesOnlyAsTheTable := by
  intro s t h
  obtain ⟨he, rfl⟩ | ⟨he, rfl⟩ | ⟨b, rest, he, hp, ht⟩ | ⟨b, he, hp, rfl⟩ := step_event_cases s t h <;> rw [he]
  · exact rfl
  · obtain ⟨hphase, -⟩ := acceptBeat_next b _ t ht
    refine ⟨?_, hphase⟩
    cases hph : s.phase with
    | idle => exact .inl rfl
    | collect => exact .inr rfl
    | respond => exact absurd hph hp
  · exact ⟨hp, by simp [hp]⟩

/-- Settles O25: of all events only a payload beat reaches `storeSample`. -/
theorem onlyPayloadBeatsWriteSamples : Obligations.OnlyPayloadBeatsWriteSamples := by
  intro s t h hnr
  obtain ⟨-, rfl⟩ | ⟨he, -⟩ | ⟨b, rest, he, hp, ht⟩ | ⟨b, -, -, rfl⟩ := step_event_cases s t h
  · exact ⟨fun hne => absurd rfl hne, fun _ _ => rfl⟩
  · exact absurd ((nextTurn_eq_reset_iff s).2 he) hnr
  · cases hph : s.phase with
    | respond => exact absurd hph hp
    | idle =>
      obtain ⟨-, -, hsb⟩ := acceptBeat_idle b _ t ht hph
      exact ⟨fun hne => absurd hsb hne, fun i _ => by rw [hsb]⟩
    | collect =>
      obtain ⟨-, -, hsb⟩ := acceptBeat_collect b _ t ht hph
      rw [hsb]
      refine ⟨fun hne => ⟨rfl, ?_, b, he⟩, fun i hi => ?_⟩
      · by_contra hfull
        exact hne (storeSample_of_full b.data s.len s.sb (Nat.le_of_not_lt hfull))
      · rw [storeSample_getElem, if_neg hi]
  · exact ⟨fun hne => absurd rfl hne, fun _ _ => rfl⟩

/-- Settles O26: of all events only a command beat reaches `Exec`, and there XB is kept or is the transform. -/
theorem onlySuccessfulTransformsWriteCoefficients : Obligations.OnlySuccessfulTransformsWriteCoefficients := by
  intro s t h hnr hne
  obtain ⟨-, rfl⟩ | ⟨he, -⟩ | ⟨b, rest, -, hp, ht⟩ | ⟨b, -, -, rfl⟩ := step_event_cases s t h
  · exact absurd rfl hne
  · exact absurd ((nextTurn_eq_reset_iff s).2 he) hnr
  · obtain hxb | ⟨hphase, hlen, hbeats, hxb⟩ := acceptBeat_xb b _ t ht
    · exact absurd hxb hne
    · exact ⟨hp, hphase, hbeats, hlen, hxb⟩
  · exact absurd rfl hne

/-- Settles O27: a beat captured in IDLE is the header, one captured in COLLECT leaves HDR. -/
theorem headerLatchedByFirstBeatOnly : Obligations.HeaderLatchedByFirstBeatOnly := by
  intro s t h hnr
  obtain ⟨he, rfl⟩ | ⟨he, -⟩ | ⟨b, rest, he, hp, ht⟩ | ⟨b, he, hp, rfl⟩ := step_event_cases s t h
  · simp [he]
  · exact absurd ((nextTurn_eq_reset_iff s).2 he) hnr
  · cases hph : s.phase with
    | respond => exact absurd hph hp
    | idle =>
      obtain ⟨hhdr, -⟩ := acceptBeat_idle b _ t ht hph
      simp [he, hhdr]
    | collect =>
      obtain ⟨hhdr, -⟩ := acceptBeat_collect b _ t ht hph
      simp [he, hhdr]
  · simp [he, hp]

/-- Settles O28: in COLLECT a command beat makes LEN `nextLen`, and nothing else outside IDLE writes it. -/
theorem payloadCountSaturates : Obligations.PayloadCountSaturates := by
  intro s t h hnr hidle
  obtain ⟨he, rfl⟩ | ⟨he, -⟩ | ⟨b, rest, he, hp, ht⟩ | ⟨b, he, hp, rfl⟩ := step_event_cases s t h
  · simp [he]
  · exact absurd ((nextTurn_eq_reset_iff s).2 he) hnr
  · have hph : s.phase = .collect := by
      cases hph : s.phase with
      | collect => rfl
      | idle => exact absurd hph hidle
      | respond => exact absurd hph hp
    obtain ⟨-, hlen, -⟩ := acceptBeat_collect b _ t ht hph
    have hnat : t.len.toNat = min (s.len.toNat + 1) 0xFFFF := by rw [hlen, nextLen_toNat]
    have hlt := s.len.isLt
    refine ⟨?_, by omega, fun _ _ => hnat⟩
    by_cases hmax : s.len.toNat = 0xFFFF
    · exact .inl (BitVec.eq_of_toNat_eq (by omega))
    · exact .inr (by omega)
  · simp [he]

/-- Settles O29, event by event. -/
theorem buildParameterNeverChanges : Obligations.BuildParameterNeverChanges := by
  intro s t h
  obtain ⟨-, rfl⟩ | ⟨-, rfl⟩ | ⟨b, rest, -, -, ht⟩ | ⟨b, -, -, rfl⟩ := step_event_cases s t h
  · rfl
  · rfl
  · obtain ⟨-, -, -, -, hcfg⟩ := acceptBeat_next b _ t ht
    exact hcfg
  · rfl

/-- Settles O10, outcome by outcome. -/
theorem execLeavesTheRestUnchanged : Obligations.ExecLeavesTheRestUnchanged := by
  intro i s t h
  obtain ⟨hl, rfl, hx⟩ | ⟨hl, rfl, hx⟩ | ⟨-, sig, rfl, hx⟩ | ⟨-, -, hx⟩ | ⟨-, -, hx⟩ := exec_cases i s <;>
    rw [hx] at h <;> cases h
  · simp [hl]
  · simp [hl]
  · simp
  · simp
  · simp

/-- Settles O18: a beat offered has RIDX at most 32, so beyond it none is. -/
theorem responseBeyondTheBufferFaults : Obligations.ResponseBeyondTheBufferFaults := by
  intro s hp hn hgt
  rw [step_respond s hn hp]
  cases hb : offeredBeat s with
  | none => rfl
  | some b =>
    obtain ⟨hle, -⟩ := offeredBeat_some s b hb
    exact absurd hle (Nat.not_le.2 hgt)

/-- Settles O22: each clause is a field of `State.reset`. -/
theorem resetStateIsIdleAndEmpty : Obligations.ResetStateIsIdleAndEmpty :=
  ⟨rfl, rfl, rfl, rfl, rfl, rfl, rfl⟩

/-- Settles O30: at reset PHASE is IDLE, and both invariants speak of RESPOND. -/
theorem bothInvariantsHoldAtReset : Obligations.BothInvariantsHoldAtReset :=
  have hpFrac : 1 ≤ State.reset.cfg.pFrac := by decide
  have hphase : State.reset.phase ≠ .respond := by decide
  ⟨⟨hpFrac, fun h => absurd h hphase⟩, fun h => absurd h hphase⟩

end Sys2Proof.Proofs
end

section
/-! SUPPORT. What the response is made of after `Exec`, and what a beat moves on the channels. -/

namespace Sys2Proof.Machine

/-! Legality and the decoder -/

/-- The decoder names an instruction for the legal headers and for no others (R76, R84). -/
theorem isSome_decode_instr? (h : Word) : (decode h).instr?.isSome = legalHeader h := by
  simp only [legalHeader, headerReservedClear, headerOpcodeKnown, headerSZeroOnTransform]
  change _ = ((headerRsv h == 0#48) && (headerOpc h == 0x01#8 || headerOpc h == 0x02#8 || headerOpc h == 0x03#8) &&
    (!(headerOpc h == 0x01#8 || headerOpc h == 0x02#8) || headerS h == 0#8))
  unfold decode
  split_ifs <;> simp_all [Decoded.instr?]

theorem legalHeader_of_legal (h : Word) (i : Instr) (hd : decode h = .legal i) : legalHeader h = true := by
  rw [← isSome_decode_instr?, hd]; rfl

theorem legalHeader_of_illegal (h : Word) (why : Reject) (hd : decode h = .illegal why) : legalHeader h = false := by
  rw [← isSome_decode_instr?, hd]; rfl

/-! The status that belongs to a frame, one equation for each outcome (R58, R170) -/

section
variable (cfg : Config) (h : Word) (len : BitVec 16) (a b : Word)

theorem statusOf_illegal (hl : legalHeader h = false) :
    statusOf cfg h len a b = statusWord (CmdError.code .illegalCommand) (headerOpc h) len 0 0 := by
  simp [statusOf, hl, CmdError.code]

theorem statusOf_transform (hl : legalHeader h = true) (hopc : headerOpc h ≠ 0x03) :
    statusOf cfg h len a b =
      if len = 32 then statusWord statusOk (headerOpc h) len 0 0
      else statusWord (CmdError.code .invalidLength) (headerOpc h) len 0 0 := by
  rw [statusOf, if_neg (by simp [hl]), if_neg hopc]
  by_cases hlen : len = 32
  · subst hlen; rfl
  · rw [if_neg hlen, if_neg hlen]; rfl

theorem statusOf_compare (hl : legalHeader h = true) (hopc : headerOpc h = 0x03) :
    statusOf cfg h len a b =
      if len = 2 then
        statusWord statusOk (headerOpc h) len (cmpSig a b (headerS h).toNat cfg.pFrac).matchBit
          (cmpSig a b (headerS h).toNat cfg.pFrac).reason
      else statusWord (CmdError.code .badOperandCount) (headerOpc h) len 0 0 := by
  rw [statusOf, if_neg (by simp [hl]), if_pos hopc, hopc]
  by_cases hlen : len = 2
  · subst hlen; rfl
  · rw [if_neg hlen, if_neg hlen]; rfl

end

/-! `Exec` and a whole response -/

/-- `Exec` leaves the status of the frame it ran on, and where 32 data beats are to follow, its transform in XB
(R22, R58, R59). -/
theorem execFrame_response (s t : State) (h : execFrame s = .next t) :
    t.rstat = statusOf s.cfg s.hdr s.len s.sb[0] s.sb[1] ∧
      (responseBeats t.rstat = 33 → t.xb = transformOf s.hdr s.sb) := by
  cases hd : decode s.hdr with
  | illegal why =>
    rw [execFrame_of_illegal s why hd] at h
    cases h
    rw [statusOf_illegal _ _ _ _ _ (legalHeader_of_illegal _ why hd), raise_rstat, responseBeats_error]
    simp
  | legal i =>
    have hl := legalHeader_of_legal _ i hd
    by_cases hopc : headerOpc s.hdr = 0x03
    · rw [execFrame_compare s i hd hopc] at h
      cases h
      rw [statusOf_compare _ _ _ _ _ hl hopc]
      split
      · simp [hopc]
      · rw [raise_rstat, responseBeats_error]; simp
    · rw [execFrame_transform s i hd hopc] at h
      cases h
      rw [statusOf_transform _ _ _ _ _ hl hopc]
      split
      · simp
      · rw [raise_rstat, responseBeats_error]; simp

/-- The invariant holds of what `Exec` leaves, whatever it started from. -/
theorem responseInv_execFrame (s t : State) (h : execFrame s = .next t) : ResponseInv t := by
  obtain ⟨u, hu, -, hridx, hhdr, hlen, hsb, hcfg, -⟩ := execFrame_next s
  obtain ⟨hrstat, hxb⟩ := execFrame_response s t h
  rw [hu] at h
  cases h
  intro _
  have hpos : 0 < responseBeats t.rstat := by
    obtain hb | hb := responseBeats_eq t.rstat <;> omega
  rw [hridx, hhdr, hlen, hsb, hcfg]
  exact ⟨hrstat, hpos, hxb⟩

theorem responseInv_acceptBeat (b : Beat) (s t : State) (h : acceptBeat b s = .next t) : ResponseInv t := by
  cases hl : b.last with
  | false => rw [acceptBeat_of_not_last b s hl] at h; cases h; exact fun hp => nomatch hp
  | true => rw [acceptBeat_of_last b s hl] at h; exact responseInv_execFrame _ t h

/-- A response beat that is not the last leaves one more to send (R59, R60). -/
theorem ResponseInv.sendBeat {s : State} {b : Beat} (h : ResponseInv s) (hp : s.phase = .respond)
    (hb : offeredBeat s = some b) : ResponseInv (sendBeat b s) := by
  obtain ⟨hrstat, hridx, hxb⟩ := h hp
  obtain ⟨-, hlast⟩ := offeredBeat_some s b hb
  intro hp'
  have hnot : s.ridx + 1 ≠ responseBeats s.rstat := by
    intro he
    simp [hlast, he] at hp'
  exact ⟨hrstat, by simp only [sendBeat_ridx, sendBeat_rstat]; omega, hxb⟩

/-- A command beat touches neither channel: the edge has taken it off the command channel already (R52, R57). -/
theorem acceptBeat_channels (b : Beat) (s t : State) (h : acceptBeat b s = .next t) :
    t.cmd = s.cmd ∧ t.rsp = s.rsp := by
  obtain ⟨-, -, hcmd, hrsp, -⟩ := capture_frame b s
  cases hl : b.last with
  | false => rw [acceptBeat_of_not_last b s hl] at h; cases h; exact ⟨hcmd, hrsp⟩
  | true =>
    obtain ⟨u, hu, -, -, -, -, -, -, hcmd', hrsp', -⟩ := execFrame_next (capture b s)
    rw [acceptBeat_of_last b s hl, hu] at h
    cases h
    exact ⟨hcmd'.trans hcmd, hrsp'.trans hrsp⟩

end Sys2Proof.Machine
end

section
/-! PROOFS. The statements about the sequencer and its two channels (20_memory.md). -/

namespace Sys2Proof.Proofs

open Sys2Proof.Machine

/-- Settles O32: `Exec` establishes the invariant, a response beat keeps it, and every other edge stays in its phase or
leaves RESPOND. -/
theorem responseInvIsKeptByEveryStep : Obligations.ResponseInvIsKeptByEveryStep := by
  intro s t hinv h
  obtain ⟨-, rfl⟩ | ⟨-, rfl⟩ | ⟨hn, hp, b, rest, hc, -⟩ | ⟨-, hp, b, hb, rfl⟩ := step_cases s t h
  · exact hinv
  · exact fun hp => nomatch hp
  · rw [step_command s b rest hn hp hc] at h
    exact responseInv_acceptBeat b _ t h
  · exact ResponseInv.sendBeat (s := { s with turns := s.turns.tail }) hinv hp hb

/-- Settles O24: only a command beat shortens one channel and only a response beat lengthens the other. -/
theorem channelsMoveOneBeatInOrder : Obligations.ChannelsMoveOneBeatInOrder := by
  intro s t h
  obtain ⟨-, rfl⟩ | ⟨-, rfl⟩ | ⟨hn, hp, b, rest, hc, -⟩ | ⟨hn, hp, b, -, rfl⟩ := step_cases s t h
  · exact ⟨.inl rfl, .inl rfl, .inl rfl⟩
  · exact ⟨.inl rfl, .inl rfl, .inl rfl⟩
  · rw [step_command s b rest hn hp hc] at h
    obtain ⟨hcmd, hrsp⟩ := acceptBeat_channels b _ t h
    exact ⟨.inr ⟨⟨b, by rw [hc, hcmd]⟩, hp, hn⟩, .inl hrsp, .inr hrsp⟩
  · exact ⟨.inl rfl, .inr ⟨⟨b, rfl⟩, hp, hn⟩, .inl rfl⟩

/-- Settles O8: with LEN = 2 the first two payload words are compared. -/
theorem cmpSigCompletesWithTheVerdict : Obligations.CmpSigCompletesWithTheVerdict := by
  intro s sig hl
  have hx : exec (.cmpSig sig) s =
      .next (completeCompare (cmpSig s.sb[0] s.sb[1] sig.toNat s.cfg.pFrac) s) := if_pos hl
  rw [hx, ← hl]
  rfl

/-- Settles O13: the step is `Exec` on the captured state, and there HDR decodes to the instruction. -/
theorem lastBeatRunsTheDecodedInstruction : Obligations.LastBeatRunsTheDecodedInstruction := by
  intro s b rest i hn hc hl
  refine ⟨fun hp hd => ?_, fun hp hd => ?_⟩
  · rw [step_header s b rest hn hp hc, if_pos hl]
    exact execFrame_of_legal _ i hd
  · rw [step_payload s b rest hn hp hc, if_pos hl]
    exact execFrame_of_legal _ i hd

/-- Settles O15, by the last-flag. -/
theorem headerBeatIsLatched : Obligations.HeaderBeatIsLatched := by
  intro s d l rest hp hn hc
  rw [step_header s _ rest hn hp hc]
  exact ⟨fun hl => if_neg (by simp [hl]), fun hl => if_pos hl⟩

/-- Settles O16: the buffer is `storeSample` and the count `nextLen`, whatever the last-flag. -/
theorem payloadBeatIsStoredAndCounted : Obligations.PayloadBeatIsStoredAndCounted := by
  intro s d l rest hp hn hc
  refine ⟨storeSample d s.len s.sb, nextLen s.len, storeSample_getElem d s.len s.sb, nextLen_toNat s.len, ?_⟩
  rw [step_payload s _ rest hn hp hc]
  exact ⟨fun hl => if_neg (by simp [hl]), fun hl => if_pos hl⟩

/-- Settles O17: up to RIDX = 32 a beat is offered, and the step sends it. -/
theorem responseBeatIsSent : Obligations.ResponseBeatIsSent := by
  intro s hp hn hle
  obtain ⟨d, hb, hstatus, hdata⟩ := offeredBeat_of_le s hle
  refine ⟨d, hstatus, hdata, ?_⟩
  rw [step_respond s hn hp, hb]
  simp only [beq_eq_decide, decide_eq_true_eq]

/-- Settles O19: `responseBeats` tests exactly the two fields named. -/
theorem responseHas33BeatsExactlyForAGoodTransform :
    Obligations.ResponseHas33BeatsExactlyForAGoodTransform := by
  intro w
  refine ⟨?_, responseBeats_eq w⟩
  change responseBeats w = 33 ↔ statusField w = statusOk ∧ (statusOpc w = 0x01 ∨ statusOpc w = 0x02)
  unfold responseBeats
  split
  · next hgood => exact iff_of_true rfl hgood
  · next hbad => exact iff_of_false (by decide) hbad

/-- Settles O21: a side that is not ready, or nothing on offer. -/
theorem edgeWithoutTransferChangesNothing : Obligations.EdgeWithoutTransferChangesNothing := by
  rintro s (hidle | ⟨hn, hp, hc⟩)
  · exact step_idle s hidle
  · exact step_hold s hn hp hc

end Sys2Proof.Proofs
end

section
/-! SUPPORT. A header word as its three fields (R71), and the decoder and the encoder in terms of them (R76, R84). -/

namespace Sys2Proof

/-! The fields of a header -/

/-- A header is the sum of its fields (R71). -/
theorem header_toNat (h : Word) :
    h.toNat = (headerOpc h).toNat + (headerS h).toNat * 2 ^ 8 + (headerRsv h).toNat * 2 ^ 16 := by
  have hlt := h.isLt
  simp only [headerOpc, headerS, headerRsv, BitVec.extractLsb'_toNat, Nat.shiftRight_eq_div_pow]
  omega

/-- No bit of a header lies outside its three fields (R71). -/
theorem header_eq_iff (g h : Word) :
    g = h ↔ headerRsv g = headerRsv h ∧ headerOpc g = headerOpc h ∧ headerS g = headerS h := by
  constructor
  · rintro rfl
    exact ⟨rfl, rfl, rfl⟩
  · rintro ⟨hrsv, hopc, hs⟩
    apply BitVec.eq_of_toNat_eq
    rw [header_toNat g, header_toNat h, hrsv, hopc, hs]

theorem headerReservedClear_iff (h : Word) : headerReservedClear h = true ↔ headerRsv h = 0 := beq_iff_eq

theorem headerOpcodeKnown_iff (h : Word) :
    headerOpcodeKnown h = true ↔ headerOpc h = 0x01 ∨ headerOpc h = 0x02 ∨ headerOpc h = 0x03 := by
  simp [headerOpcodeKnown, headerOpc, or_assoc]

theorem headerSZeroOnTransform_iff (h : Word) :
    headerSZeroOnTransform h = true ↔ (headerOpc h = 0x01 ∨ headerOpc h = 0x02 → headerS h = 0) := by
  simp [headerSZeroOnTransform, headerOpc, headerS, imp_iff_not_or]

/-! The decoder and the encoder on the fields -/

/-- `OPC` of an instruction (R72). -/
def Instr.opcode : Instr → BitVec 8
  | .dctDirect => 0x01
  | .dctFast   => 0x02
  | .cmpSig _  => 0x03

/-- `S` of an instruction: zero on a transform (R71, R73). -/
def Instr.sig : Instr → BitVec 8
  | .dctDirect => 0
  | .dctFast   => 0
  | .cmpSig s  => s

/-- A header decodes to an instruction exactly when it has that instruction's fields (R76, R84). -/
theorem decode_eq_legal_iff_fields (h : Word) (i : Instr) :
    decode h = .legal i ↔ headerRsv h = 0 ∧ headerOpc h = i.opcode ∧ headerS h = i.sig := by
  unfold decode
  cases i with
  | dctDirect => split_ifs <;> simp_all [Instr.opcode, Instr.sig]
  | dctFast => split_ifs <;> simp_all [Instr.opcode, Instr.sig]
  | cmpSig s => split_ifs <;> simp_all [Instr.opcode, Instr.sig]

theorem encode_toNat (i : Instr) : (encode i).toNat = i.opcode.toNat + i.sig.toNat * 2 ^ 8 := by
  cases i with
  | dctDirect => rfl
  | dctFast => rfl
  | cmpSig s =>
    have hs := s.isLt
    exact Nat.mod_eq_of_lt (show 3 + s.toNat * 2 ^ 8 < 2 ^ 64 by omega)

/-- The encoder writes the instruction's fields and zeros (R71, R82). -/
theorem header_fields_encode (i : Instr) :
    headerRsv (encode i) = 0 ∧ headerOpc (encode i) = i.opcode ∧ headerS (encode i) = i.sig := by
  have hsum := encode_toNat i
  rw [header_toNat] at hsum
  have hopc := i.opcode.isLt
  have hsig := i.sig.isLt
  have hopc' := (headerOpc (encode i)).isLt
  have hsig' := (headerS (encode i)).isLt
  refine ⟨BitVec.eq_of_toNat_eq ?_, BitVec.eq_of_toNat_eq ?_, BitVec.eq_of_toNat_eq ?_⟩
  · change _ = 0
    omega
  · omega
  · omega

/-- A header decodes to an instruction exactly when it is that instruction's encoding (R84). -/
theorem decode_eq_legal_iff (h : Word) (i : Instr) : decode h = .legal i ↔ encode i = h := by
  obtain ⟨hrsv, hopc, hs⟩ := header_fields_encode i
  rw [decode_eq_legal_iff_fields, header_eq_iff, hrsv, hopc, hs]
  simp only [eq_comm]

/-- The mask and match of the `CMP.SIG` row read the reserved bits and `OPC`, not `S` (R84). -/
theorem cmpSig_match_iff (h : Word) :
    h &&& 0xFFFFFFFFFFFF00FF = 0x0000000000000003 ↔ headerRsv h = 0 ∧ headerOpc h = 0x03 := by
  have hrsv : headerRsv (h &&& 0xFFFFFFFFFFFF00FF) = headerRsv h :=
    BitVec.extractLsb'_and.trans BitVec.and_allOnes
  have hopc : headerOpc (h &&& 0xFFFFFFFFFFFF00FF) = headerOpc h :=
    BitVec.extractLsb'_and.trans BitVec.and_allOnes
  have hs : headerS (h &&& 0xFFFFFFFFFFFF00FF) = 0 := BitVec.extractLsb'_and.trans BitVec.and_zero
  rw [header_eq_iff, hrsv, hopc, hs]
  exact ⟨fun ⟨hr, ho, _⟩ => ⟨hr, ho⟩, fun ⟨hr, ho⟩ => ⟨hr, ho, rfl⟩⟩

/-! Rejection -/

/-- The decoder rejects exactly the headers it reads no instruction from (R76). -/
theorem decode_illegal_iff_not_legal (h : Word) :
    (∃ why, decode h = .illegal why) ↔ ∀ i, decode h ≠ .legal i := by
  cases decode h <;> simp

theorem decode_of_reserved (h : Word) (hr : headerReservedClear h = false) :
    decode h = .illegal .reservedBits := by
  have hrsv : headerRsv h ≠ 0 := fun e => by simp [(headerReservedClear_iff h).2 e] at hr
  exact if_pos hrsv

theorem decode_of_unknown_opcode (h : Word) (hr : headerReservedClear h = true)
    (hk : headerOpcodeKnown h = false) : decode h = .illegal .unknownOpcode := by
  rw [headerReservedClear_iff] at hr
  rw [← Bool.not_eq_true, headerOpcodeKnown_iff] at hk
  push Not at hk
  obtain ⟨h1, h2, h3⟩ := hk
  rw [decode, if_neg (not_not_intro hr), if_neg h1, if_neg h2, if_neg h3]

theorem decode_of_s_on_transform (h : Word) (hr : headerReservedClear h = true)
    (hz : headerSZeroOnTransform h = false) : decode h = .illegal .sOnTransform := by
  rw [headerReservedClear_iff] at hr
  rw [← Bool.not_eq_true, headerSZeroOnTransform_iff] at hz
  push Not at hz
  obtain ⟨h1 | h2, hs⟩ := hz
  · simpa [decode, hr, h1] using hs
  · simpa [decode, hr, h2] using hs

/-- A legal header decodes to an instruction (R76). -/
theorem decode_of_legalHeader (h : Word) (hl : legalHeader h = true) : ∃ i, decode h = .legal i := by
  rw [← Machine.isSome_decode_instr?] at hl
  cases hd : decode h with
  | legal i => exact ⟨i, rfl⟩
  | illegal why => rw [hd] at hl; cases hl

end Sys2Proof
end

section
/-! SUPPORT. Which status words the block can produce (R78 to R81, R170), and that it never stops. -/

namespace Sys2Proof.Machine

/-! The verdict's codes (R80) -/

theorem Verdict.matchBit_eq_one_iff (v : Verdict) : v.matchBit = 1 ↔ v.reason = 0 := by
  cases v <;> decide

theorem Verdict.reason_le_four (v : Verdict) : v.reason ≤ 4 := by
  cases v <;> decide

/-! The status that belongs to a frame -/

theorem headerOpc_of_legalHeader (h : Word) (hl : legalHeader h = true) :
    headerOpc h = 0x01 ∨ headerOpc h = 0x02 ∨ headerOpc h = 0x03 := by
  simp only [legalHeader, Bool.and_eq_true] at hl
  obtain ⟨⟨-, hk⟩, -⟩ := hl
  exact (headerOpcodeKnown_iff h).1 hk

section
variable (cfg : Config) (h : Word) (len : BitVec 16) (a b : Word)

/-- Every row of the outcome table echoes the header's low byte and the payload count (R58, R78). -/
theorem statusOf_echo :
    statusOpc (statusOf cfg h len a b) = headerOpc h ∧ statusLen (statusOf cfg h len a b) = len := by
  cases hl : legalHeader h with
  | false => simp [statusOf_illegal, hl]
  | true =>
    by_cases hopc : headerOpc h = 0x03
    · rw [statusOf_compare cfg h len a b hl hopc]
      split <;> simp
    · rw [statusOf_transform cfg h len a b hl hopc]
      split <;> simp

/-- The status of a frame is a row of the outcome table (R79, R80, R170). -/
theorem legalStatus_statusOf : LegalStatus (statusOf cfg h len a b) := by
  cases hl : legalHeader h with
  | false =>
    rw [statusOf_illegal cfg h len a b hl]
    simp [LegalStatus, CmdError.code]
  | true =>
    by_cases hopc : headerOpc h = 0x03
    · rw [statusOf_compare cfg h len a b hl hopc]
      have hmatch := (cmpSig a b (headerS h).toNat cfg.pFrac).matchBit_eq_one_iff
      have hreason := (cmpSig a b (headerS h).toNat cfg.pFrac).reason_le_four
      split
      · next hlen => subst hlen; simpa [LegalStatus, statusOk, hopc] using ⟨hreason, hmatch⟩
      · next hlen => simpa [LegalStatus, CmdError.code, hopc] using hlen
    · rw [statusOf_transform cfg h len a b hl hopc]
      have htransform : headerOpc h = 0x01 ∨ headerOpc h = 0x02 :=
        (headerOpc_of_legalHeader h hl).imp_right (·.resolve_right hopc)
      split
      · next hlen => subst hlen; simpa [LegalStatus, statusOk] using htransform
      · next hlen => simpa [LegalStatus, CmdError.code] using ⟨htransform, hlen⟩

end

/-! The invariant -/

/-- The status invariant only weakens what is known of RSTAT, from its value to the form of it (R28, R78). -/
theorem ResponseInv.statusInv {s : State} (h : ResponseInv s) (hcfg : 1 ≤ s.cfg.pFrac) : StatusInv s := by
  refine ⟨hcfg, fun hp => ?_⟩
  obtain ⟨hrstat, hridx, -⟩ := h hp
  obtain ⟨hopc, hlen⟩ := statusOf_echo s.cfg s.hdr s.len s.sb[0] s.sb[1]
  rw [← hrstat] at hopc hlen
  exact ⟨hrstat ▸ legalStatus_statusOf .., hopc, hlen, hridx⟩

/-- A response beat that is not the last leaves one more to send (R59, R60). -/
theorem StatusInv.sendBeat {s : State} {b : Beat} (h : StatusInv s) (hp : s.phase = .respond)
    (hb : offeredBeat s = some b) : StatusInv (sendBeat b s) := by
  obtain ⟨hcfg, hinv⟩ := h
  obtain ⟨hlegal, hopc, hlen, hridx⟩ := hinv hp
  obtain ⟨-, hlast⟩ := offeredBeat_some s b hb
  refine ⟨hcfg, fun hp' => ⟨hlegal, hopc, hlen, ?_⟩⟩
  have hnot : s.ridx + 1 ≠ responseBeats s.rstat := by
    intro he
    simp [hlast, he] at hp'
  simp only [sendBeat_ridx, sendBeat_rstat]
  omega

/-- A step keeps the invariant: `Exec` establishes it whatever the frame, a response beat keeps it. -/
theorem StatusInv.step {s t : State} (hinv : StatusInv s) (h : step s = .next t) : StatusInv t := by
  have ⟨hpFrac, _⟩ := hinv
  obtain ⟨-, rfl⟩ | ⟨-, rfl⟩ | ⟨hn, hp, b, rest, hc, -⟩ | ⟨-, hp, b, hb, rfl⟩ := step_cases s t h
  · exact hinv
  · exact ⟨hpFrac, fun hp => nomatch hp⟩
  · rw [step_command s b rest hn hp hc] at h
    obtain ⟨-, -, -, -, hcfg⟩ := acceptBeat_next b _ t h
    exact (responseInv_acceptBeat b _ t h).statusInv (hcfg ▸ hpFrac)
  · exact StatusInv.sendBeat (s := { s with turns := s.turns.tail }) hinv hp hb

/-! Progress -/

/-- A command beat never stops the block, whatever it carries (R172, R204). -/
theorem acceptBeat_isNext (b : Beat) (s : State) : ∃ t, acceptBeat b s = .next t := by
  cases hl : b.last with
  | false => exact ⟨_, acceptBeat_of_not_last b s hl⟩
  | true =>
    obtain ⟨t, ht, -⟩ := execFrame_next (capture b s)
    exact ⟨t, acceptBeat_of_last b s hl ▸ ht⟩

/-- The block never stops where RESPOND has a beat to send (R60). -/
theorem step_isNext (s : State) (hridx : s.phase = .respond → s.ridx < responseBeats s.rstat) :
    ∃ t, step s = .next t := by
  cases hn : nextTurn s with
  | idle => exact ⟨_, step_idle s hn⟩
  | reset => exact ⟨_, step_reset s hn⟩
  | transfer =>
    by_cases hp : s.phase = .respond
    · have hle : s.ridx ≤ 32 := by
        have hlt := hridx hp
        obtain hnb | hnb := responseBeats_eq s.rstat <;> omega
      obtain ⟨d, hb, -⟩ := offeredBeat_of_le s hle
      exact ⟨_, by rw [step_respond s hn hp, hb]⟩
    · cases hc : s.cmd with
      | nil => exact ⟨_, step_hold s hn hp hc⟩
      | cons b rest =>
        rw [step_command s b rest hn hp hc]
        exact acceptBeat_isNext b _

end Sys2Proof.Machine
end

section
/-! PROOFS. The statements about headers, the decoder and the status word (30_encoding.md). -/

namespace Sys2Proof.Proofs

open Sys2Proof.Machine

/-- Settles O1: both directions read from `decode_eq_legal_iff`. -/
theorem decodeEncodeAgree : Obligations.DecodeEncodeAgree :=
  ⟨fun i => (decode_eq_legal_iff _ i).2 rfl, fun h i => (decode_eq_legal_iff h i).1⟩

/-- Settles O31: progress and preservation. -/
theorem statusInvIsKeptAndNoStepStops : Obligations.StatusInvIsKeptAndNoStepStops := by
  intro s hinv
  have ⟨_, hresp⟩ := hinv
  have hridx : s.phase = .respond → s.ridx < responseBeats s.rstat := fun hp =>
    let ⟨_, _, _, hlt⟩ := hresp hp
    hlt
  obtain ⟨t, ht⟩ := step_isNext s hridx
  exact ⟨t, ht, hinv.step ht⟩

/-- Settles O2: a row matches exactly the encodings of its instructions, and what no row matches is illegal. -/
theorem decodeIsTheTablesMaskAndMatch : Obligations.DecodeIsTheTablesMaskAndMatch := by
  intro h
  have hdirect : decode h = .legal .dctDirect ↔ h = 0x0000000000000001 :=
    (decode_eq_legal_iff h .dctDirect).trans eq_comm
  have hfast : decode h = .legal .dctFast ↔ h = 0x0000000000000002 :=
    (decode_eq_legal_iff h .dctFast).trans eq_comm
  have hcmp (s : BitVec 8) : decode h = .legal (.cmpSig s) ↔
      h &&& 0xFFFFFFFFFFFF00FF = 0x0000000000000003 ∧ s = headerS h := by
    rw [decode_eq_legal_iff_fields, cmpSig_match_iff, and_assoc, @eq_comm _ s]
    rfl
  have hmask : h &&& 0xFFFFFFFFFFFFFFFF = h := BitVec.and_allOnes
  rw [hmask]
  refine ⟨hdirect, hfast, hcmp, ?_⟩
  rw [decode_illegal_iff_not_legal]
  constructor
  · intro hno
    exact ⟨fun e => hno _ (hdirect.2 e), fun e => hno _ (hfast.2 e), fun e => hno _ ((hcmp _).2 ⟨e, rfl⟩)⟩
  · rintro ⟨h1, h2, h3⟩ (_ | _ | s) hd
    · exact h1 (hdirect.1 hd)
    · exact h2 (hfast.1 hd)
    · exact h3 ((hcmp s).1 hd).1

/-- Settles O3, by the first test that fails, or none. -/
theorem illegalHeadersAreRejectedByCause : Obligations.IllegalHeadersAreRejectedByCause := by
  intro h
  cases hr : headerReservedClear h with
  | false => simp [decode_of_reserved h hr, legalHeader, hr]
  | true =>
    cases hk : headerOpcodeKnown h with
    | false => simp [decode_of_unknown_opcode h hr hk, legalHeader, hk]
    | true =>
      cases hz : headerSZeroOnTransform h with
      | false => simp [decode_of_s_on_transform h hr hz, legalHeader, hz]
      | true =>
        have hl : legalHeader h = true := by simp [legalHeader, hr, hk, hz]
        obtain ⟨i, hd⟩ := decode_of_legalHeader h hl
        simp [hd, hl]

/-- Settles O5: the sum does not overflow, so each field stands alone in its bits. -/
theorem statusWordIsTheSumOfItsFields : Obligations.StatusWordIsTheSumOfItsFields := by
  intro st opc len m r
  exact ⟨statusWord_toNat st opc len m r, statusField_statusWord st opc len m r, statusOpc_statusWord st opc len m r,
    statusLen_statusWord st opc len m r, statusMatch_statusWord st opc len m r, statusReason_statusWord st opc len m r,
    statusUpper_statusWord st opc len m r⟩

/-- Settles O4: the rows of R85 are closed words. -/
theorem workedHeadersAndStatusWords : Obligations.WorkedHeadersAndStatusWords := by
  unfold Obligations.WorkedHeadersAndStatusWords
  decide

/-- Settles O12, verdict by verdict. -/
theorem matchExactlyWhenReasonZero : Obligations.MatchExactlyWhenReasonZero := by
  intro v
  refine ⟨v.matchBit_eq_one_iff, v.reason_le_four, ?_⟩
  cases v <;> decide

end Sys2Proof.Proofs
end

section
/-! SUPPORT. A finite pattern as significand and scale (R90), and which magnitude is nearest to a point (R92). -/

namespace Sys2Proof.Machine

/-! Significand and scale -/

/-- The significand of a finite pattern, hidden bit included (R90). -/
def significand (p : Word) : Nat := if expField p = 0 then fracField p else 2 ^ 52 + fracField p

/-- The binary exponent of a finite pattern's last place, in units of 2^-1074 (R90). -/
def scale (p : Word) : Nat := expField p - 1

theorem magnitude_eq_significand (p : Word) : magnitude p = significand p * 2 ^ scale p := by
  unfold magnitude significand scale
  split
  · next h => simp [h]
  · rfl

theorem significand_lt (p : Word) : significand p < 2 ^ 53 := by
  have hf := fracField_lt p
  unfold significand
  split <;> omega

/-- Above the least scale a significand has its hidden bit. -/
theorem le_significand (p : Word) (h : scale p ≠ 0) : 2 ^ 52 ≤ significand p := by
  have he : expField p ≠ 0 := fun h0 => h (by rw [scale, h0])
  rw [significand, if_neg he]
  omega

theorem toNat_eq_significand (p : Word) :
    p.toNat = (if signBit p then 2 ^ 63 else 0) + (scale p * 2 ^ 52 + significand p) := by
  rw [toNat_eq_fields p]
  unfold scale significand
  by_cases he : expField p = 0
  · simp only [he, if_true]
    omega
  · simp only [he, if_false]
    omega

theorem isFinite_iff_expField_lt (p : Word) : isFinite p = true ↔ expField p < 2047 := by
  have hlt := expField_lt p
  rw [isFinite, bne_iff_ne]
  omega

theorem magnitude_le (p : Word) (h : isFinite p = true) : magnitude p ≤ (2 ^ 53 - 1) * 2 ^ 2045 := by
  have hscale : scale p ≤ 2045 := by
    have he := (isFinite_iff_expField_lt p).1 h
    rw [scale]
    omega
  rw [magnitude_eq_significand]
  gcongr
  · exact Nat.le_pred_of_lt (significand_lt p)
  · exact one_le_two

/-- Normalised significands of one magnitude have one scale. -/
theorem scale_le_of_magnitude_eq {p q : Word} (h : magnitude p = magnitude q) : scale p ≤ scale q := by
  by_contra hlt
  have hp := le_significand p (by omega)
  have hq := significand_lt q
  have hpow : 2 ^ (scale q + 1) ≤ 2 ^ scale p := Nat.pow_le_pow_right two_pos (by omega)
  have hpos := Nat.two_pow_pos (scale q)
  have : magnitude q < magnitude p := by
    rw [magnitude_eq_significand, magnitude_eq_significand]
    calc significand q * 2 ^ scale q < 2 ^ 53 * 2 ^ scale q := Nat.mul_lt_mul_of_pos_right hq hpos
      _ = 2 ^ 52 * 2 ^ (scale q + 1) := by ring
      _ ≤ significand p * 2 ^ scale p := Nat.mul_le_mul hp hpow
  omega

/-- A pattern is its sign and its magnitude (R90). -/
theorem eq_of_signBit_magnitude {p q : Word} (hs : signBit p = signBit q) (hm : magnitude p = magnitude q) : p = q := by
  have hscale := Nat.le_antisymm (scale_le_of_magnitude_eq hm) (scale_le_of_magnitude_eq hm.symm)
  have hsig : significand p = significand q := by
    rw [magnitude_eq_significand, magnitude_eq_significand, hscale] at hm
    exact Nat.eq_of_mul_eq_mul_right (Nat.two_pow_pos _) hm
  apply BitVec.eq_of_toNat_eq
  rw [toNat_eq_significand p, toNat_eq_significand q, hs, hscale, hsig]

/-- The magnitude that a significand and a scale encode; a carry out of the significand goes into the exponent. -/
theorem magnitude_pattern (s : Bool) (e q : Nat) (hlo : e = 0 ∨ 2 ^ 52 ≤ q) (hhi : q ≤ 2 ^ 53)
    (hm : e * 2 ^ 52 + q < 2 ^ 63) : magnitude (zeroOf s ||| BitVec.ofNat 64 (e * 2 ^ 52 + q)) = q * 2 ^ e := by
  rw [magnitude, expField_pattern s _ hm, fracField_pattern s _ hm]
  obtain hq | hq | hq : q < 2 ^ 52 ∨ (2 ^ 52 ≤ q ∧ q < 2 ^ 53) ∨ q = 2 ^ 53 := by omega
  · have he : e = 0 := hlo.resolve_right (by omega)
    subst he
    rw [if_pos (by omega), pow_zero]
    omega
  · rw [if_neg (by omega), show (e * 2 ^ 52 + q) / 2 ^ 52 - 1 = e by omega,
      show 2 ^ 52 + (e * 2 ^ 52 + q) % 2 ^ 52 = q by omega]
  · subst hq
    rw [if_neg (by omega), show (e * 2 ^ 52 + 2 ^ 53) / 2 ^ 52 - 1 = e + 1 by omega,
      show 2 ^ 52 + (e * 2 ^ 52 + 2 ^ 53) % 2 ^ 52 = 2 ^ 52 by omega]
    ring

/-! The nearest magnitude -/

/-- Below `2^(52+e)` magnitudes may be finer than `2^e`; from there on they are multiples of it. -/
theorem dvd_magnitude_or_lt (p : Word) (e : Nat) : 2 ^ e ∣ magnitude p ∨ magnitude p < 2 ^ 52 * 2 ^ e := by
  rw [magnitude_eq_significand]
  by_cases h : e ≤ scale p
  · exact .inl (Dvd.dvd.mul_left (pow_dvd_pow 2 h) _)
  · right
    calc significand p * 2 ^ scale p < 2 ^ 53 * 2 ^ scale p :=
          Nat.mul_lt_mul_of_pos_right (significand_lt p) (Nat.two_pow_pos _)
      _ = 2 ^ 52 * 2 ^ (scale p + 1) := by ring
      _ ≤ 2 ^ 52 * 2 ^ e := Nat.mul_le_mul_left _ (Nat.pow_le_pow_right two_pos (by omega))

section
variable {R : Type} [CommRing R] [LinearOrder R] [IsStrictOrderedRing R]

/-- Two different multiples of `d` are together at least `d` away from any point. -/
theorem le_dist_add_dist (d x : R) (hd : 0 ≤ d) (i j : Nat) (hij : i ≠ j) : d ≤ |i * d - x| + |j * d - x| := by
  have habs : (1 : R) ≤ |(i : R) - j| := by
    have h : (1 : Int) ≤ |(i : Int) - j| := Int.one_le_abs (by omega)
    exact_mod_cast h
  calc d ≤ |(i : R) - j| * d := le_mul_of_one_le_left hd habs
    _ = |(i * d - x) - (j * d - x)| := by rw [← abs_of_nonneg hd, ← abs_mul, abs_of_nonneg hd]; ring_nf
    _ ≤ |i * d - x| + |j * d - x| := abs_sub _ _

/-- A multiple of `d` within half of `d` of a point is as near as any multiple; only a point half way between two
multiples has another one as near. -/
theorem nearest_multiple (d x : R) (hd : 0 ≤ d) (q : Nat) (hhalf : 2 * |q * d - x| ≤ d) (j : Nat) :
    |q * d - x| ≤ |j * d - x| ∧ (|q * d - x| = |j * d - x| → q ≠ j → 2 * |q * d - x| = d) := by
  by_cases hqj : q = j
  · exact ⟨by rw [hqj], fun _ hne => absurd hqj hne⟩
  · have hsum := le_dist_add_dist d x hd q j hqj
    exact ⟨by linarith, fun heq _ => by linarith⟩

/-- Such a multiple of `2^e` is also as near as any magnitude, where the point is not in a binade with finer magnitudes.
`u` is the unit of the magnitudes. -/
theorem nearest_magnitude (u x : R) (hu : 0 < u) (q e : Nat) (hbinade : e = 0 ∨ 2 ^ 52 * (2 ^ e * u) ≤ x)
    (hhalf : 2 * |q * (2 ^ e * u) - x| ≤ 2 ^ e * u) (w : Word) :
    |q * (2 ^ e * u) - x| ≤ |magnitude w * u - x| ∧
      (|q * (2 ^ e * u) - x| = |magnitude w * u - x| → magnitude w ≠ q * 2 ^ e →
        2 * |q * (2 ^ e * u) - x| = 2 ^ e * u) := by
  have hd : 0 ≤ 2 ^ e * u := by positivity
  obtain ⟨j, hj⟩ | ⟨he, hlt⟩ : 2 ^ e ∣ magnitude w ∨ (e ≠ 0 ∧ magnitude w < 2 ^ 52 * 2 ^ e) := by
    by_cases he : e = 0
    · exact .inl (he ▸ one_dvd _)
    · exact (dvd_magnitude_or_lt w e).imp_right fun h => ⟨he, h⟩
  · obtain ⟨hle, htie⟩ := nearest_multiple _ x hd q hhalf j
    have hw : (magnitude w : R) * u = j * (2 ^ e * u) := by rw [hj]; push_cast; ring
    rw [hw]
    refine ⟨hle, fun heq hne => htie heq ?_⟩
    rintro rfl
    exact hne (hj.trans (Nat.mul_comm _ _))
  · have hx := hbinade.resolve_left he
    have hw : (magnitude w : R) * u < 2 ^ 52 * (2 ^ e * u) := by
      rw [← mul_assoc]
      exact mul_lt_mul_of_pos_right (by exact_mod_cast hlt) hu
    obtain ⟨hle, -⟩ := nearest_multiple _ x hd q hhalf (2 ^ 52)
    rw [Nat.cast_pow, Nat.cast_ofNat, abs_sub_comm (2 ^ 52 * _) x, abs_of_nonneg (sub_nonneg.2 hx)] at hle
    have hfar : x - magnitude w * u ≤ |magnitude w * u - x| := abs_sub_comm x _ ▸ le_abs_self _
    exact ⟨by linarith, fun heq => by linarith⟩

end

end Sys2Proof.Machine
end

section
/-! SUPPORT. What `round64` gives (R92): its significand and scale, the overflow threshold, the zero below the least
pattern, the nearest magnitude between them, and the values it returns unchanged. -/

namespace Sys2Proof.Machine

/-! The significand of a rounding -/

/-- `2^roundShift` is the distance of neighbouring patterns at `n`, in the units of `n` (R92). -/
def roundShift (n k : Nat) : Nat := max k (Nat.log2 n - 52)

/-- The significand that `n` is rounded to, before a carry goes into the exponent (R92). -/
def roundedSignificand (n k : Nat) : Nat :=
  roundHalfEven (n / 2 ^ roundShift n k) (n % 2 ^ roundShift n k) (roundShift n k)

theorem roundMagnitude_eq (n k : Nat) :
    roundMagnitude n k = (roundShift n k - k) * 2 ^ 52 + roundedSignificand n k := rfl

theorem le_roundShift (n k : Nat) : k ≤ roundShift n k := Nat.le_max_left _ _

theorem lt_two_pow_roundShift (n k : Nat) : n < 2 ^ 53 * 2 ^ roundShift n k := by
  rw [← pow_add]
  refine Nat.lt_log2_self.trans_le (Nat.pow_le_pow_right two_pos ?_)
  rw [roundShift]
  omega

/-- Where the distance is not the least one, `n` has all 53 bits. -/
theorem two_pow_roundShift_le (n k : Nat) (h : roundShift n k - k ≠ 0) : 2 ^ 52 * 2 ^ roundShift n k ≤ n := by
  have hlog : roundShift n k = n.log2 - 52 ∧ 52 < n.log2 := by
    rw [roundShift] at h ⊢
    omega
  have hn : n ≠ 0 := by
    rintro rfl
    simp at hlog
  rw [← pow_add, show 52 + roundShift n k = n.log2 by omega]
  exact Nat.log2_self_le hn

section
variable (n k : Nat)

/-- `roundHalfEven_spec` for the significand. -/
theorem roundedSignificand_spec :
    2 * n ≤ 2 * (roundedSignificand n k * 2 ^ roundShift n k) + 2 ^ roundShift n k ∧
      2 * (roundedSignificand n k * 2 ^ roundShift n k) ≤ 2 * n + 2 ^ roundShift n k ∧
      ((2 * n = 2 * (roundedSignificand n k * 2 ^ roundShift n k) + 2 ^ roundShift n k ∨
        2 * (roundedSignificand n k * 2 ^ roundShift n k) = 2 * n + 2 ^ roundShift n k) →
        roundedSignificand n k % 2 = 0) :=
  roundHalfEven_spec n (roundShift n k)

/-- The real is at most half a unit away, and half a unit only from an even significand. -/
theorem roundedSignificand_dist :
    2 * |(roundedSignificand n k : Int) * 2 ^ roundShift n k - n| ≤ 2 ^ roundShift n k ∧
      (2 * |(roundedSignificand n k : Int) * 2 ^ roundShift n k - n| = 2 ^ roundShift n k →
        roundedSignificand n k % 2 = 0) := by
  obtain ⟨hlo, hhi, htie⟩ := roundedSignificand_spec n k
  zify at hlo hhi
  obtain ⟨habs, -⟩ | ⟨habs, -⟩ := abs_cases ((roundedSignificand n k : Int) * 2 ^ roundShift n k - n)
  all_goals rw [habs]
  · refine ⟨by linarith, fun h => htie (.inr ?_)⟩
    zify
    linarith
  · refine ⟨by linarith, fun h => htie (.inl ?_)⟩
    zify
    linarith

/-- A bound on the real that has room for half a unit bounds the significand. -/
theorem roundedSignificand_le (m : Nat) (h : n ≤ m * 2 ^ roundShift n k) : roundedSignificand n k ≤ m := by
  obtain ⟨-, hhi, -⟩ := roundedSignificand_spec n k
  have hpos := Nat.two_pow_pos (roundShift n k)
  by_contra hlt
  have hmul := Nat.mul_le_mul_right (2 ^ roundShift n k) (Nat.lt_of_not_le hlt)
  rw [Nat.succ_mul] at hmul
  omega

theorem le_roundedSignificand (m : Nat) (h : m * 2 ^ roundShift n k ≤ n) : m ≤ roundedSignificand n k := by
  obtain ⟨hlo, -, -⟩ := roundedSignificand_spec n k
  have hpos := Nat.two_pow_pos (roundShift n k)
  by_contra hlt
  have hmul := Nat.mul_le_mul_right (2 ^ roundShift n k) (Nat.lt_of_not_le hlt)
  rw [Nat.succ_mul] at hmul
  omega

theorem roundedSignificand_le_two_pow : roundedSignificand n k ≤ 2 ^ 53 :=
  roundedSignificand_le n k _ (lt_two_pow_roundShift n k).le

theorem two_pow_le_roundedSignificand : roundShift n k - k = 0 ∨ 2 ^ 52 ≤ roundedSignificand n k := by
  by_cases h : roundShift n k - k = 0
  · exact .inl h
  · exact .inr (le_roundedSignificand n k _ (two_pow_roundShift_le n k h))

/-- A multiple of the distance is its own rounding. -/
theorem roundedSignificand_of_eq (m : Nat) (h : n = m * 2 ^ roundShift n k) : roundedSignificand n k = m :=
  Nat.le_antisymm (roundedSignificand_le n k m h.le) (le_roundedSignificand n k m h.ge)

/-! Overflow and underflow -/

/-- The threshold 2^1024 - 2^970 is half a unit in the last place above the largest finite value (R92). -/
theorem threshold_eq : 2 * ((2 ^ 1024 - 2 ^ 970) * 2 ^ (1074 + k)) = (2 ^ 54 - 1) * 2 ^ (2045 + k) := by
  have hsub : (2 : Nat) ^ 1024 - 2 ^ 970 = (2 ^ 54 - 1) * 2 ^ 970 := by decide +kernel
  have hpow : 2 * (2 ^ 970 * 2 ^ (1074 + k)) = 2 ^ (2045 + k) := by
    have hexp : 970 + (1074 + k) + 1 = 2045 + k := by omega
    rw [← pow_add, ← pow_succ', hexp]
  rw [hsub, Nat.mul_assoc, Nat.mul_left_comm, hpow]

/-- Half way above an odd significand is a tie that rounds up. -/
theorem roundedSignificand_le_iff (m : Nat) (hm : m % 2 = 1) :
    roundedSignificand n k ≤ m ↔ 2 * n < (2 * m + 1) * 2 ^ roundShift n k := by
  obtain ⟨hlo, hhi, htie⟩ := roundedSignificand_spec n k
  have hmid : (2 * m + 1) * 2 ^ roundShift n k = 2 * (m * 2 ^ roundShift n k) + 2 ^ roundShift n k := by ring
  rw [hmid]
  constructor
  · intro hq
    have hmul := Nat.mul_le_mul_right (2 ^ roundShift n k) hq
    by_contra hge
    have heq : roundedSignificand n k * 2 ^ roundShift n k = m * 2 ^ roundShift n k := by omega
    have hodd := Nat.eq_of_mul_eq_mul_right (Nat.two_pow_pos _) heq
    have heven := htie (.inl (by omega))
    omega
  · intro hn
    by_contra hge
    have hmul := Nat.mul_le_mul_right (2 ^ roundShift n k) (Nat.lt_of_not_le hge)
    rw [Nat.succ_mul] at hmul
    omega

/-- The rounding stays finite exactly below the threshold (R92). -/
theorem roundMagnitude_lt_iff :
    roundMagnitude n k < 2047 * 2 ^ 52 ↔ n < (2 ^ 1024 - 2 ^ 970) * 2 ^ (1074 + k) := by
  have hk := le_roundShift n k
  have hle := roundedSignificand_le_two_pow n k
  have hbig := two_pow_le_roundedSignificand n k
  have hn : n < (2 ^ 1024 - 2 ^ 970) * 2 ^ (1074 + k) ↔ 2 * n < (2 ^ 54 - 1) * 2 ^ (2045 + k) := by
    rw [← threshold_eq, Nat.mul_lt_mul_left two_pos]
  rw [hn, roundMagnitude_eq]
  obtain h | h | h := Nat.lt_trichotomy (roundShift n k) (2045 + k)
  · have hlt := lt_two_pow_roundShift n k
    have hpow : 2 * 2 ^ roundShift n k ≤ 2 ^ (2045 + k) := by
      rw [← pow_succ']
      exact pow_right_mono₀ one_le_two h
    exact iff_of_true (by omega) (by omega)
  · have hiff := roundedSignificand_le_iff n k (2 ^ 53 - 1) (by norm_num)
    rw [← h, show 2 ^ 54 - 1 = 2 * (2 ^ 53 - 1) + 1 by norm_num, ← hiff]
    omega
  · have hge := two_pow_roundShift_le n k (by omega)
    have hpow : 2 * 2 ^ (2045 + k) ≤ 2 ^ roundShift n k := by
      rw [← pow_succ']
      exact pow_right_mono₀ one_le_two h
    exact iff_of_false (by omega) (by omega)

theorem round64_of_ge (s : Bool) (h : (2 ^ 1024 - 2 ^ 970) * 2 ^ (1074 + k) ≤ n) : round64 s n k = infOf s := by
  have h0 : n ≠ 0 := by
    rintro rfl
    have : 0 < (2 ^ 1024 - 2 ^ 970) * 2 ^ (1074 + k) := Nat.mul_pos (by decide +kernel) (Nat.two_pow_pos _)
    omega
  rw [round64, if_neg h0, if_neg]
  rw [roundMagnitude_lt_iff]
  exact Nat.not_lt_of_le h

theorem round64_of_lt (s : Bool) (h0 : n ≠ 0) (h : n < (2 ^ 1024 - 2 ^ 970) * 2 ^ (1074 + k)) :
    round64 s n k = zeroOf s ||| BitVec.ofNat 64 (roundMagnitude n k) := by
  rw [round64, if_neg h0, if_pos ((roundMagnitude_lt_iff n k).2 h)]

/-- Half of the least magnitude is a tie between it and zero, and zero is even. -/
theorem roundMagnitude_eq_zero (h : 2 * n ≤ 2 ^ k) : roundMagnitude n k = 0 := by
  have hk := le_roundShift n k
  have hshift : roundShift n k = k := by
    by_contra hne
    have hge := two_pow_roundShift_le n k (by omega)
    have hpow : 2 ^ k ≤ 2 ^ roundShift n k := Nat.pow_le_pow_right two_pos hk
    have hpos := Nat.two_pow_pos k
    omega
  obtain ⟨-, hhi, htie⟩ := roundedSignificand_spec n k
  rw [roundMagnitude_eq, hshift, Nat.sub_self, Nat.zero_mul, Nat.zero_add]
  rw [hshift] at hhi htie
  by_contra hq
  have hmul := Nat.mul_le_mul_right (2 ^ k) (Nat.one_le_iff_ne_zero.2 hq)
  have hone : roundedSignificand n k * 2 ^ k = 1 * 2 ^ k := by omega
  have hodd := Nat.eq_of_mul_eq_mul_right (Nat.two_pow_pos k) hone
  have heven := htie (.inr (by omega))
  omega

theorem round64_of_le (s : Bool) (h : 2 * n ≤ 2 ^ k) : round64 s n k = zeroOf s := by
  simp [round64, roundMagnitude_eq_zero n k h]

/-! Between the threshold and zero -/

section
variable {n k}
variable (s : Bool) (hlt : n < (2 ^ 1024 - 2 ^ 970) * 2 ^ (1074 + k))
include hlt

theorem isFinite_round64 : isFinite (round64 s n k) = true := by
  by_cases h0 : n = 0
  · simp [h0]
  · have hm := (roundMagnitude_lt_iff n k).2 hlt
    rw [round64_of_lt n k s h0 hlt, isFinite_iff_expField_lt, expField_pattern s _ (by omega)]
    omega

/-- A finite result's magnitude, in the units of `n`. -/
theorem magnitude_round64 :
    magnitude (round64 s n k) = roundedSignificand n k * 2 ^ (roundShift n k - k) := by
  by_cases h0 : n = 0
  · subst h0
    rw [round64_zero, (magnitude_eq_zero _).2 (isZero_zeroOf s), roundedSignificand_of_eq 0 k 0 (by simp), Nat.zero_mul]
  · have hm := (roundMagnitude_lt_iff n k).2 hlt
    rw [roundMagnitude_eq] at hm
    rw [round64_of_lt n k s h0 hlt, roundMagnitude_eq]
    exact magnitude_pattern s _ _ (two_pow_le_roundedSignificand n k) (roundedSignificand_le_two_pow n k) (by omega)

theorem fracField_round64_mod_two (h0 : n ≠ 0) :
    fracField (round64 s n k) % 2 = roundedSignificand n k % 2 := by
  have hm := (roundMagnitude_lt_iff n k).2 hlt
  rw [round64_of_lt n k s h0 hlt, fracField_pattern s _ (by omega), roundMagnitude_eq]
  omega

/-- The result is nearest; where another magnitude is as near, its significand is even (R92). -/
theorem round64_nearest (w : Word) :
    |(magnitude (round64 s n k) : Int) * 2 ^ k - n| ≤ |(magnitude w : Int) * 2 ^ k - n| ∧
      (|(magnitude (round64 s n k) : Int) * 2 ^ k - n| = |(magnitude w : Int) * 2 ^ k - n| →
        magnitude w ≠ magnitude (round64 s n k) → roundedSignificand n k % 2 = 0) := by
  have hpow : (2 : Int) ^ (roundShift n k - k) * 2 ^ k = 2 ^ roundShift n k := by
    rw [← pow_add, Nat.sub_add_cancel (le_roundShift n k)]
  obtain ⟨hhalf, heven⟩ := roundedSignificand_dist n k
  have hbinade : roundShift n k - k = 0 ∨ 2 ^ 52 * (2 : Int) ^ roundShift n k ≤ n := by
    by_cases h : roundShift n k - k = 0
    · exact .inl h
    · exact .inr (by exact_mod_cast two_pow_roundShift_le n k h)
  have hmag : (magnitude (round64 s n k) : Int) * 2 ^ k = roundedSignificand n k * 2 ^ roundShift n k := by
    rw [magnitude_round64 s hlt, Nat.cast_mul, mul_assoc, ← hpow, Nat.cast_pow, Nat.cast_ofNat]
  rw [← hpow] at hhalf heven hbinade hmag
  obtain ⟨hle, htie⟩ := nearest_magnitude ((2 : Int) ^ k) n (by positivity) _ _ hbinade hhalf w
  rw [hmag]
  exact ⟨hle, fun heq hne => heven (htie heq (magnitude_round64 s hlt ▸ hne))⟩

end

end

/-! Values that need no rounding -/

/-- The least patterns are 2^-1074 apart, up to 2^53 of them (R95). -/
theorem round64_of_small (s : Bool) (n : Nat) (h : n < 2 ^ 53) :
    isFinite (round64 s n 0) = true ∧ magnitude (round64 s n 0) = n := by
  have hshift : roundShift n 0 = 0 := by
    have hle := two_pow_roundShift_le n 0
    rw [Nat.sub_zero] at hle
    by_contra hne
    have hpow : 2 ^ 1 ≤ 2 ^ roundShift n 0 := Nat.pow_le_pow_right two_pos (Nat.one_le_iff_ne_zero.2 hne)
    have hn := hle hne
    omega
  have hlt : n < (2 ^ 1024 - 2 ^ 970) * 2 ^ (1074 + 0) :=
    h.trans_le (by decide +kernel)
  refine ⟨isFinite_round64 s hlt, ?_⟩
  rw [magnitude_round64 s hlt, hshift, roundedSignificand_of_eq n 0 n (by simp [hshift])]
  simp

/-- A finite value is below the threshold. -/
theorem magnitude_mul_lt (p : Word) (k : Nat) (h : isFinite p = true) :
    magnitude p * 2 ^ k < (2 ^ 1024 - 2 ^ 970) * 2 ^ (1074 + k) := by
  have hle := Nat.mul_le_mul_right (2 ^ k) (magnitude_le p h)
  have hpow : (2 ^ 53 - 1) * 2 ^ 2045 * 2 ^ k = (2 ^ 53 - 1) * 2 ^ (2045 + k) := by rw [Nat.mul_assoc, ← pow_add]
  have hpos := Nat.two_pow_pos (2045 + k)
  rw [hpow] at hle
  refine Nat.lt_of_mul_lt_mul_left (a := 2) ?_
  rw [threshold_eq]
  omega

/-- A finite value is its own rounding. -/
theorem round64_magnitude (p : Word) (k : Nat) (h : isFinite p = true) :
    round64 (signBit p) (magnitude p * 2 ^ k) k = p := by
  obtain ⟨hle, -⟩ := round64_nearest (signBit p) (magnitude_mul_lt p k h) p
  rw [Nat.cast_mul, Nat.cast_pow, Nat.cast_ofNat, sub_self, abs_zero, ← sub_mul, abs_nonpos_iff, mul_eq_zero_iff_right
    (by positivity), sub_eq_zero, Nat.cast_inj] at hle
  exact eq_of_signBit_magnitude (signBit_round64 ..) hle

/-! Signed values -/

@[simp] theorem natAbs_fixed (p : Word) : (fixed p).natAbs = magnitude p := by
  cases h : signBit p <;> simp [fixed, h]

@[simp] theorem fixed_zeroOf (s : Bool) : fixed (zeroOf s) = 0 := by
  rw [← Int.natAbs_eq_zero, natAbs_fixed, magnitude_eq_zero, isZero_zeroOf]

theorem fixed_eq_zero (p : Word) : fixed p = 0 ↔ isZero p = true := by
  rw [← Int.natAbs_eq_zero, natAbs_fixed, magnitude_eq_zero]

theorem signBit_eq_decide (p : Word) (h : fixed p ≠ 0) : signBit p = decide (fixed p < 0) := by
  have hm : 0 < magnitude p := by rw [← natAbs_fixed]; omega
  cases hs : signBit p with
  | false => simp [fixed, hs]
  | true => simpa [fixed, hs] using hm

/-- On the sign of an integer a pattern's distance from it is that of the magnitudes. -/
theorem abs_fixed_sub (p : Word) (r u : Int) (h : signBit p = decide (r < 0)) :
    |fixed p * u - r| = |(magnitude p : Int) * u - r.natAbs| := by
  rw [Int.natCast_natAbs]
  by_cases hr : r < 0
  · have hs : signBit p = true := by simpa [hr] using h
    rw [fixed, if_pos hs, abs_of_neg hr, ← abs_neg]
    ring_nf
  · have hs : signBit p = false := by simpa [hr] using h
    rw [fixed, hs, abs_of_nonneg (not_lt.1 hr)]
    rfl

theorem abs_magnitude_sub_le (w : Word) (r u : Int) (hu : 0 ≤ u) :
    |(magnitude w : Int) * u - r.natAbs| ≤ |fixed w * u - r| := by
  have habs : (magnitude w : Int) * u = |fixed w * u| := by
    rw [abs_mul, abs_of_nonneg hu, ← natAbs_fixed, Int.natCast_natAbs]
  rw [habs, Int.natCast_natAbs]
  exact abs_abs_sub_abs_le _ _

/-- A finite rounding of an integer number of units is nearest to it (R92). -/
theorem round64_nearest_fixed (r : Int) (k : Nat) (h : isFinite (round64 (decide (r < 0)) r.natAbs k) = true)
    (w : Word) :
    |fixed (round64 (decide (r < 0)) r.natAbs k) * 2 ^ k - r| ≤ |fixed w * 2 ^ k - r| := by
  have hlt : r.natAbs < (2 ^ 1024 - 2 ^ 970) * 2 ^ (1074 + k) := by
    by_contra hge
    rw [round64_of_ge _ _ _ (Nat.le_of_not_lt hge)] at h
    exact absurd ((isFinite_iff _).1 h).2 (by simp)
  rw [abs_fixed_sub _ r _ (signBit_round64 ..)]
  exact (round64_nearest _ hlt w).1.trans (abs_magnitude_sub_le w r _ (by positivity))

end Sys2Proof.Machine
end

section
/-! SUPPORT. The rows of the case tables of the three operations (R93, R94). -/

namespace Sys2Proof.Machine

/-! The classes of an operand -/

theorem eq_infOf (p : Word) (h : isInf p = true) : p = infOf (signBit p) := by
  simp only [isInf, Bool.and_eq_true, beq_iff_eq] at h
  refine eq_of_fields (by simp) ?_ ?_ <;> cases signBit p <;> simp only [h] <;> rfl

theorem isFinite_of_isZero (p : Word) (h : isZero p = true) : isFinite p = true := by
  rw [(isZero_iff p).1 h, isFinite_zeroOf]

/-- An operand is a NaN, an infinity or finite (R90). -/
theorem class_cases (p : Word) : isNaN p = true ∨ (∃ s, p = infOf s) ∨ isFinite p = true := by
  cases hn : isNaN p with
  | true => exact .inl rfl
  | false =>
    cases hi : isInf p with
    | true => exact .inr (.inl ⟨_, eq_infOf p hi⟩)
    | false => exact .inr (.inr ((isFinite_iff p).2 ⟨hn, hi⟩))

@[simp] theorem isZero_infOf (s : Bool) : isZero (infOf s) = false := by cases s <;> decide

@[simp] theorem isFinite_infOf (s : Bool) : isFinite (infOf s) = false := by cases s <;> decide

/-! `fadd` -/

section
variable (a b : Word)

theorem fadd_of_isNaN (h : isNaN a = true ∨ isNaN b = true) : fadd a b = cnan := by
  obtain h | h := h <;> simp [fadd, h]

theorem fadd_infOf_infOf (s t : Bool) : fadd (infOf s) (infOf t) = if s = t then infOf s else cnan := by
  cases s <;> cases t <;> rfl

theorem fadd_infOf_finite (s : Bool) (hb : isFinite b = true) : fadd (infOf s) b = infOf s := by
  obtain ⟨hn, hi⟩ := (isFinite_iff b).1 hb
  simp [fadd, hn, hi]

theorem fadd_finite_infOf (s : Bool) (ha : isFinite a = true) : fadd a (infOf s) = infOf s := by
  obtain ⟨hn, hi⟩ := (isFinite_iff a).1 ha
  simp [fadd, hn, hi]

theorem fadd_finite_finite (ha : isFinite a = true) (hb : isFinite b = true) :
    fadd a b = if fixed a + fixed b = 0 then zeroOf (isZero a && isZero b && signBit a && signBit b)
      else round64 (decide (fixed a + fixed b < 0)) (fixed a + fixed b).natAbs 0 := by
  obtain ⟨han, hai⟩ := (isFinite_iff a).1 ha
  obtain ⟨hbn, hbi⟩ := (isFinite_iff b).1 hb
  simp [fadd, han, hai, hbn, hbi]

/-- A NaN result of an addition is the canonical one (R94). -/
theorem fadd_eq_cnan (h : isNaN (fadd a b) = true) : fadd a b = cnan := by
  obtain ha | ⟨s, rfl⟩ | ha := class_cases a
  · exact fadd_of_isNaN a b (.inl ha)
  · obtain hb | ⟨t, rfl⟩ | hb := class_cases b
    · exact fadd_of_isNaN _ b (.inr hb)
    · rw [fadd_infOf_infOf] at h ⊢
      split at h
      · simp at h
      · next hne => exact if_neg hne
    · simp [fadd_infOf_finite b s hb] at h
  · obtain hb | ⟨t, rfl⟩ | hb := class_cases b
    · exact fadd_of_isNaN a b (.inr hb)
    · simp [fadd_finite_infOf a t ha] at h
    · rw [fadd_finite_finite a b ha hb] at h
      split at h <;> simp at h

theorem fadd_comm : fadd a b = fadd b a := by
  obtain ha | ⟨s, rfl⟩ | ha := class_cases a
  · rw [fadd_of_isNaN a b (.inl ha), fadd_of_isNaN b a (.inr ha)]
  · obtain hb | ⟨t, rfl⟩ | hb := class_cases b
    · rw [fadd_of_isNaN _ b (.inr hb), fadd_of_isNaN b _ (.inl hb)]
    · cases s <;> cases t <;> rfl
    · rw [fadd_infOf_finite b s hb, fadd_finite_infOf b s hb]
  · obtain hb | ⟨t, rfl⟩ | hb := class_cases b
    · rw [fadd_of_isNaN a b (.inr hb), fadd_of_isNaN b a (.inl hb)]
    · rw [fadd_infOf_finite a t ha, fadd_finite_infOf a t ha]
    · have hsign : (isZero a && isZero b && signBit a && signBit b) =
          (isZero b && isZero a && signBit b && signBit a) := by ac_rfl
      rw [fadd_finite_finite a b ha hb, fadd_finite_finite b a hb ha, add_comm, hsign]

/-! `fsub` -/

/-- `fsub` is `fadd` of the negation, also on a NaN (R93). -/
theorem fsub_eq_fadd_neg : fsub a b = fadd a (neg b) := by
  unfold fsub
  split
  · next hb => rw [fadd_of_isNaN a (neg b) (.inr (by simpa using hb))]
  · rfl

/-! `fmul` -/

theorem fmul_of_isNaN (h : isNaN a = true ∨ isNaN b = true) : fmul a b = cnan := by
  obtain h | h := h <;> simp [fmul, h]

theorem fmul_infOf_zero (s : Bool) (hb : isZero b = true) : fmul (infOf s) b = cnan := by
  simp [fmul, hb]

theorem fmul_infOf (s : Bool) (hn : isNaN b = false) (hb : isZero b = false) :
    fmul (infOf s) b = infOf (s != signBit b) := by
  simp [fmul, hn, hb]

theorem fmul_finite_finite (ha : isFinite a = true) (hb : isFinite b = true) :
    fmul a b = round64 (signBit a != signBit b) (magnitude a * magnitude b) 1074 := by
  obtain ⟨han, hai⟩ := (isFinite_iff a).1 ha
  obtain ⟨hbn, hbi⟩ := (isFinite_iff b).1 hb
  simp [fmul, han, hai, hbn, hbi]

theorem fmul_comm : fmul a b = fmul b a := by
  have hnan : (isNaN a || isNaN b) = (isNaN b || isNaN a) := Bool.or_comm _ _
  have hzero : (isInf a && isZero b || isZero a && isInf b) = (isInf b && isZero a || isZero b && isInf a) := by ac_rfl
  have hinf : (isInf a || isInf b) = (isInf b || isInf a) := Bool.or_comm _ _
  have hsign : (signBit a != signBit b) = (signBit b != signBit a) := bne_comm
  rw [fmul, fmul, hnan, hzero, hinf, hsign, Nat.mul_comm]

/-- A NaN result of a multiplication is the canonical one (R94). -/
theorem fmul_eq_cnan (h : isNaN (fmul a b) = true) : fmul a b = cnan := by
  unfold fmul at h ⊢
  split
  · rfl
  · split
    · rfl
    · next hnan hzero =>
      rw [if_neg hnan, if_neg hzero] at h
      split at h <;> simp at h

/-- The sign of an operand is the sign of the product, where there is one (R93). -/
theorem fmul_neg_left (h : isNaN (fmul a b) = false) : fmul (neg a) b = neg (fmul a b) := by
  have hsign : (signBit (neg a) != signBit b) = !(signBit a != signBit b) := by
    rw [signBit_neg]
    cases signBit a <;> cases signBit b <;> rfl
  unfold fmul at h ⊢
  rw [isNaN_neg, isInf_neg, isZero_neg, magnitude_neg, hsign]
  split_ifs at h ⊢
  · simp at h
  · simp at h
  · rw [neg_infOf]
  · rw [round64_not]

end

/-! Infinities -/

/-- The rows with an infinity (R93). -/
theorem infinity_rows (a b : Word) (ha : isInf a = true) :
    (isZero b = true → fmul a b = cnan) ∧
    (isNaN b = false → isZero b = false → fmul a b = infOf (signBit a != signBit b)) ∧
    (isFinite b = true → fadd a b = a ∧ fsub a b = a ∧ fsub b a = neg a) ∧
    (isInf b = true → signBit a ≠ signBit b → fadd a b = cnan ∧ fsub a b = a ∧ fsub b a = b) ∧
    (isInf b = true → signBit a = signBit b → fadd a b = a ∧ fsub a b = cnan) := by
  obtain ⟨s, rfl⟩ : ∃ s, a = infOf s := ⟨_, eq_infOf a ha⟩
  rw [signBit_infOf, fsub_eq_fadd_neg, fsub_eq_fadd_neg, neg_infOf]
  refine ⟨fmul_infOf_zero b s, fmul_infOf b s, fun hb => ?_, fun hb hne => ?_, fun hb heq => ?_⟩
  · exact ⟨fadd_infOf_finite b s hb, fadd_infOf_finite _ s (by rwa [isFinite_neg]), fadd_finite_infOf b _ hb⟩
  · obtain ⟨t, rfl⟩ : ∃ t, b = infOf t := ⟨_, eq_infOf b hb⟩
    rw [signBit_infOf] at hne
    obtain rfl : t = !s := Bool.eq_not_of_ne hne.symm
    simp [fadd_infOf_infOf]
  · obtain ⟨t, rfl⟩ : ∃ t, b = infOf t := ⟨_, eq_infOf b hb⟩
    rw [signBit_infOf] at heq
    subst heq
    simp [fadd_infOf_infOf]

/-! Finite operands -/

/-- The rule of signs (R93). -/
theorem signBit_bne_of_ne_zero (a b : Word) (h0 : fixed a * fixed b ≠ 0) :
    (signBit a != signBit b) = decide (fixed a * fixed b < 0) := by
  obtain ⟨ha0, hb0⟩ := mul_ne_zero_iff.1 h0
  rw [signBit_eq_decide a ha0, signBit_eq_decide b hb0, Bool.eq_iff_iff]
  simp only [bne_iff_ne, ne_eq, decide_eq_decide, decide_eq_true_eq, mul_neg_iff]
  omega

section
variable {a b : Word} (ha : isFinite a = true) (hb : isFinite b = true)
include ha hb

/-- The sum of two values no bit of which is lost. -/
theorem fadd_of_small (h : (fixed a + fixed b).natAbs < 2 ^ 53) :
    isFinite (fadd a b) = true ∧ fixed (fadd a b) = fixed a + fixed b := by
  rw [fadd_finite_finite a b ha hb]
  split
  · next h0 => simp [h0]
  · next h0 =>
    obtain ⟨hfin, hmag⟩ := round64_of_small (decide (fixed a + fixed b < 0)) _ h
    have hdist := abs_fixed_sub _ (fixed a + fixed b) 1
      (signBit_round64 (decide (fixed a + fixed b < 0)) (fixed a + fixed b).natAbs 0)
    rw [hmag, mul_one, mul_one, sub_self, abs_zero, abs_eq_zero, sub_eq_zero] at hdist
    exact ⟨hfin, hdist⟩

/-- A finite sum is nearest to the exact one (R92, R93). -/
theorem fadd_nearest (hfin : isFinite (fadd a b) = true) (w : Word) :
    |fixed (fadd a b) - (fixed a + fixed b)| ≤ |fixed w - (fixed a + fixed b)| := by
  rw [fadd_finite_finite a b ha hb] at hfin ⊢
  split at hfin
  · next h0 => simp [h0]
  · next h0 =>
    rw [if_neg h0]
    simpa using round64_nearest_fixed _ 0 hfin w

/-- A product of finite operands is the exact one rounded once (R92, R93). -/
theorem fmul_eq_round64 (h0 : fixed a * fixed b ≠ 0) :
    fmul a b = round64 (decide (fixed a * fixed b < 0)) (fixed a * fixed b).natAbs 1074 := by
  rw [fmul_finite_finite a b ha hb, signBit_bne_of_ne_zero a b h0, Int.natAbs_mul, natAbs_fixed, natAbs_fixed]

theorem fmul_of_eq_zero (h0 : fixed a * fixed b = 0) : fmul a b = zeroOf (signBit a != signBit b) := by
  have hmag : magnitude a * magnitude b = 0 := by
    rw [← natAbs_fixed, ← natAbs_fixed, ← Int.natAbs_mul, h0, Int.natAbs_zero]
  rw [fmul_finite_finite a b ha hb, hmag, round64_zero]

/-- A finite product is nearest to the exact one (R92, R93). -/
theorem fmul_nearest (hfin : isFinite (fmul a b) = true) (w : Word) :
    |fixed (fmul a b) * 2 ^ 1074 - fixed a * fixed b| ≤ |fixed w * 2 ^ 1074 - fixed a * fixed b| := by
  by_cases h0 : fixed a * fixed b = 0
  · rw [fmul_of_eq_zero ha hb h0, h0, fixed_zeroOf, zero_mul, sub_zero, abs_zero]
    exact abs_nonneg _
  · rw [fmul_eq_round64 ha hb h0] at hfin ⊢
    exact round64_nearest_fixed _ 1074 hfin w

end

/-! Units (R93) -/

/-- 1.0 is 2^1074 units of 2^-1074. -/
theorem fmul_one (a : Word) (h : isNaN a = false) : fmul a 0x3FF0000000000000 = a := by
  obtain ha | ⟨s, rfl⟩ | ha := class_cases a
  · simp [ha] at h
  · rw [fmul_infOf _ s (by decide) (by decide), show signBit 0x3FF0000000000000 = false by decide, Bool.bne_false]
  · rw [fmul_finite_finite a _ ha (by decide), show magnitude 0x3FF0000000000000 = 2 ^ 1074 by decide +kernel,
      show signBit 0x3FF0000000000000 = false by decide, Bool.bne_false, round64_magnitude a 1074 ha]

/-- -1.0 is the negation of 1.0. -/
theorem fmul_neg_one (a : Word) (h : isNaN a = false) : fmul a 0xBFF0000000000000 = neg a := by
  have hone : fmul 0x3FF0000000000000 a = a := by rw [fmul_comm, fmul_one a h]
  rw [show (0xBFF0000000000000 : Word) = neg 0x3FF0000000000000 by decide, fmul_comm,
    fmul_neg_left _ a (by rw [hone, h]), hone]

/-- +0 is neutral but for -0, to which it adds to +0. -/
theorem zero_fadd (a : Word) (h : isNaN a = false) (hne : a ≠ zeroOf true) : fadd (zeroOf false) a = a := by
  obtain ha | ⟨s, rfl⟩ | ha := class_cases a
  · simp [ha] at h
  · exact fadd_finite_infOf _ s (isFinite_zeroOf false)
  · rw [fadd_finite_finite _ a (isFinite_zeroOf false) ha, fixed_zeroOf, zero_add]
    split
    · next h0 =>
      have hz := (isZero_iff a).1 ((fixed_eq_zero a).1 h0)
      cases hs : signBit a with
      | false => rw [hz, hs]; simp
      | true => exact absurd (hs ▸ hz) hne
    · next h0 => simpa [signBit_eq_decide a h0] using round64_magnitude a 0 ha

end Sys2Proof.Machine
end

section
/-! SUPPORT. The real cosines of the multiples of π/64, enclosed between integers over 2^128, and the binary64 nearest
to a real (R97, R99). The enclosure starts from the nested square roots of cos(π/64) and goes on by the recurrence of
cos(iπ/64) in i, each step of which multiplies the error by less than 4. -/

namespace Sys2Proof.Machine

open Real (cos pi)

/-! The cosine of π/64 -/

/-- The integer nearest to 2^128 * cos(π/64). -/
def cosStep : Int := 0xFFB10F1BCB6BEF1D421E8EDAAF59453E

theorem le_sqrtTwoAddSeries_succ {y : ℝ} {n : Nat} (h : y ^ 2 - 2 ≤ Real.sqrtTwoAddSeries 0 n) :
    y ≤ Real.sqrtTwoAddSeries 0 (n + 1) :=
  Real.le_sqrt_of_sq_le (by linarith)

theorem sqrtTwoAddSeries_succ_le {y : ℝ} {n : Nat} (hy : 0 ≤ y) (h : Real.sqrtTwoAddSeries 0 n ≤ y ^ 2 - 2) :
    Real.sqrtTwoAddSeries 0 (n + 1) ≤ y :=
  Real.sqrt_le_iff.2 ⟨hy, by linarith⟩

theorem cosStep_error : |2 ^ 128 * cos (pi / 64) - cosStep| ≤ 1 := by
  have hcos : cos (pi / 64) = Real.sqrtTwoAddSeries 0 5 / 2 := by
    rw [← Real.cos_pi_over_two_pow]
    norm_num
  have hlo : 2 * ((cosStep - 1) / 2 ^ 128) ≤ Real.sqrtTwoAddSeries 0 5 := by
    iterate 5 refine le_sqrtTwoAddSeries_succ ?_
    norm_num [cosStep, Real.sqrtTwoAddSeries]
  have hhi : Real.sqrtTwoAddSeries 0 5 ≤ 2 * ((cosStep + 1) / 2 ^ 128) := by
    iterate 5 refine sqrtTwoAddSeries_succ_le (by norm_num [cosStep]) ?_
    norm_num [cosStep, Real.sqrtTwoAddSeries]
  rw [hcos, abs_le]
  constructor <;> linarith

/-! The recurrence -/

/-- 2^128 * cos(φ + 2π/64) from those of φ and φ + π/64, rounded down. -/
def nextCos (a b : Int) : Int := 2 * cosStep * b / 2 ^ 128 - a

/-- 2^128 times the cosines of iπ/64 and (i+1)π/64, approximately. -/
def cosPair : Nat → Int × Int
  | 0 => (2 ^ 128, cosStep)
  | i + 1 => ((cosPair i).2, nextCos (cosPair i).1 (cosPair i).2)

/-- What the product with the step adds to the error: the step is off by at most one, and at most 2^128. -/
theorem nextCos_error (a b : Int) (φ E F : ℝ) (hb : |2 ^ 128 * cos (φ + pi / 64) - b| ≤ E)
    (ha : |2 ^ 128 * cos φ - a| ≤ F) : |2 ^ 128 * cos (φ + 2 * (pi / 64)) - nextCos a b| ≤ 2 * E + F + 3 := by
  have hrec : cos (φ + 2 * (pi / 64)) = 2 * cos (pi / 64) * cos (φ + pi / 64) - cos φ := by
    have hadd := Real.cos_add (φ + pi / 64) (pi / 64)
    have hsub := Real.cos_sub (φ + pi / 64) (pi / 64)
    rw [add_sub_cancel_right] at hsub
    rw [show φ + 2 * (pi / 64) = φ + pi / 64 + pi / 64 by ring]
    linarith
  have hfloor : |2 * (cosStep / 2 ^ 128 : ℝ) * b - (2 * cosStep * b / 2 ^ 128 : Int)| ≤ 1 := by
    have hlo : 2 ^ 128 * ((2 * cosStep * b / 2 ^ 128 : Int) : ℝ) ≤ 2 * cosStep * b := by
      exact_mod_cast Int.mul_ediv_self_le (x := 2 * cosStep * b) (by norm_num)
    have hhi : 2 * cosStep * b < 2 ^ 128 * ((2 * cosStep * b / 2 ^ 128 : Int) : ℝ) + 2 ^ 128 := by
      exact_mod_cast Int.lt_mul_ediv_self_add (x := 2 * cosStep * b) (by norm_num)
    rw [abs_le]
    constructor <;> linarith
  have hstep : |(2 ^ 128 * cos (pi / 64) - cosStep) * cos (φ + pi / 64)| ≤ 1 := by
    rw [abs_mul]
    exact mul_le_one₀ cosStep_error (abs_nonneg _) (Real.abs_cos_le_one _)
  have hprod : |(cosStep / 2 ^ 128 : ℝ) * (2 ^ 128 * cos (φ + pi / 64) - b)| ≤ E := by
    rw [abs_mul]
    exact (mul_le_of_le_one_left (abs_nonneg _) (by norm_num [cosStep, abs_le])).trans hb
  rw [hrec, nextCos, Int.cast_sub]
  rw [abs_le] at ha hfloor hstep hprod ⊢
  constructor <;> linarith

theorem cosPair_error (i : Nat) :
    |2 ^ 128 * cos (i * (pi / 64)) - (cosPair i).1| ≤ 4 ^ i ∧
      |2 ^ 128 * cos ((i + 1) * (pi / 64)) - (cosPair i).2| ≤ 4 ^ (i + 1) := by
  induction i with
  | zero => exact ⟨by norm_num [cosPair], by simpa [cosPair] using cosStep_error.trans (by norm_num)⟩
  | succ i ih =>
    obtain ⟨ha, hb⟩ := ih
    refine ⟨by simpa [cosPair] using hb, ?_⟩
    have hnext := nextCos_error (cosPair i).1 (cosPair i).2 (i * (pi / 64)) (4 ^ (i + 1)) (4 ^ i)
      (by rwa [← add_one_mul]) ha
    have hone : (1 : ℝ) ≤ 4 ^ i := one_le_pow₀ (by norm_num)
    rw [show (((i + 1 : Nat) : ℝ) + 1) * (pi / 64) = i * (pi / 64) + 2 * (pi / 64) by push_cast; ring]
    exact hnext.trans (by rw [pow_succ _ (i + 1), pow_succ]; linarith)

/-! The nearest binary64 -/

/-- A finite pattern than which none is nearer to a real number of units of 2^-1074 (R97). -/
def IsNearest (p : Word) (y : ℝ) : Prop :=
  isFinite p = true ∧
    ∀ w : Word, isFinite w = true → |((fixed p : Int) : ℝ) - y| ≤ |((fixed w : Int) : ℝ) - y|

theorem isNearest_fixed {p : Word} (hp : isFinite p = true) : IsNearest p ((fixed p : Int) : ℝ) :=
  ⟨hp, fun w _ => by rw [sub_self, abs_zero]; exact abs_nonneg _⟩

/-- Rounding to nearest is odd (R99). -/
theorem IsNearest.neg {p : Word} {y : ℝ} (h : IsNearest p y) : IsNearest (neg p) (-y) := by
  obtain ⟨hp, hnear⟩ := h
  have hflip (q : Word) : |((fixed (Machine.neg q) : Int) : ℝ) - -y| = |((fixed q : Int) : ℝ) - y| := by
    rw [fixed_neg, Int.cast_neg, ← abs_neg]
    ring_nf
  refine ⟨(isFinite_neg p).trans hp, fun w hw => ?_⟩
  rw [hflip, ← neg_neg_word w, hflip]
  exact hnear _ ((isFinite_neg w).trans hw)

/-- A positive pattern, no power of two, within half a unit in its last place. -/
theorem isNearest_of_half_ulp {p : Word} {y : ℝ} (hp : isFinite p = true) (hs : signBit p = false)
    (hsig : 2 ^ 52 < significand p) (h : 2 * |(magnitude p : ℝ) - y| ≤ 2 ^ scale p) : IsNearest p y := by
  have hmag : (magnitude p : ℝ) = significand p * (2 ^ scale p * 1) := by
    rw [magnitude_eq_significand, mul_one, Nat.cast_mul, Nat.cast_pow, Nat.cast_ofNat]
  have hbinade : 2 ^ 52 * (2 ^ scale p * 1) ≤ y := by
    have hsig' : (2 ^ 52 + 1 : ℝ) ≤ significand p := by exact_mod_cast hsig
    have hlow : (2 ^ 52 + 1) * (2 ^ scale p * 1) ≤ (magnitude p : ℝ) :=
      hmag ▸ mul_le_mul_of_nonneg_right hsig' (by positivity)
    have habs := le_abs_self ((magnitude p : ℝ) - y)
    linarith
  have hy : 0 ≤ y := le_trans (by positivity) hbinade
  have hfixed : ((fixed p : Int) : ℝ) = magnitude p := by simp [fixed, hs]
  refine ⟨hp, fun w _ => ?_⟩
  have hw : (magnitude w : ℝ) * 1 = |((fixed w : Int) : ℝ)| := by
    rw [mul_one, ← natAbs_fixed, Nat.cast_natAbs, Int.cast_abs]
  obtain ⟨hle, -⟩ := nearest_magnitude (1 : ℝ) y one_pos _ _ (.inr hbinade) (by rwa [← hmag, mul_one]) w
  rw [← hmag, ← hfixed, hw] at hle
  calc |((fixed p : Int) : ℝ) - y| ≤ |(|((fixed w : Int) : ℝ)|) - y| := hle
    _ = |(|((fixed w : Int) : ℝ)|) - (|y|)| := by rw [abs_of_nonneg hy]
    _ ≤ |((fixed w : Int) : ℝ) - y| := abs_abs_sub_abs_le _ _

/-! The ROM -/

/-- A ROM word is within half a unit in its last place of everything the enclosure of the cosine allows. -/
def romWordEncloses (i : Nat) : Prop :=
  isFinite (cosq i) = true ∧ signBit (cosq i) = false ∧ 2 ^ 52 < significand (cosq i) ∧
    2 * (((magnitude (cosq i) : Int) - (2 ^ 946 : Nat) * (cosPair i).1).natAbs + 2 ^ 946 * 4 ^ i) ≤ 2 ^ scale (cosq i)

theorem romWordEncloses_of_lt : ∀ i < 32, 0 < i → romWordEncloses i := by
  unfold romWordEncloses
  decide +kernel

/-- An integer bound that leaves room for the error of the enclosure bounds the distance of the real. -/
theorem half_ulp_of_enclosure (u m e t : Nat) (c : Int) (x : ℝ)
    (henc : 2 * (((m : Int) - u * c).natAbs + u * e) ≤ 2 ^ t) (hx : |x - c| ≤ e) : 2 * |(m : ℝ) - u * x| ≤ 2 ^ t := by
  have henc' : 2 * (|(m : ℝ) - u * c| + u * e) ≤ 2 ^ t := by
    zify at henc
    exact_mod_cast henc
  have hpart : |(u : ℝ) * (c - x)| ≤ u * e := by
    rw [abs_mul, abs_of_nonneg (Nat.cast_nonneg u), abs_sub_comm]
    exact mul_le_mul_of_nonneg_left hx (Nat.cast_nonneg u)
  have htriangle := abs_add_le ((m : ℝ) - u * c) (u * (c - x))
  rw [show (m : ℝ) - u * c + u * (c - x) = m - u * x by ring] at htriangle
  linarith

/-- Strictly inside the quarter circle the enclosure decides the nearest pattern. -/
theorem isNearest_cosq_inner (i : Nat) (hi : 0 < i) (hlt : i < 32) :
    IsNearest (cosq i) (2 ^ 1074 * cos (pi * i / 64)) := by
  obtain ⟨hfin, hsign, hsig, henc⟩ := romWordEncloses_of_lt i hlt hi
  obtain ⟨hcos, -⟩ := cosPair_error i
  have hscale : (2 : ℝ) ^ 1074 * cos (pi * i / 64) = (2 ^ 946 : Nat) * (2 ^ 128 * cos (i * (pi / 64))) := by
    rw [Nat.cast_pow, Nat.cast_ofNat, ← mul_assoc, ← pow_add, mul_comm pi, mul_div_assoc]
  rw [hscale]
  exact isNearest_of_half_ulp hfin hsign hsig (half_ulp_of_enclosure _ _ _ _ _ _ henc (by exact_mod_cast hcos))

theorem isNearest_cosq (i : Nat) (hi : i ≤ 32) : IsNearest (cosq i) (2 ^ 1074 * cos (pi * i / 64)) := by
  obtain rfl | hpos := Nat.eq_zero_or_pos i
  · have hone : 2 ^ 1074 * cos (pi * (0 : Nat) / 64) = ((fixed (cosq 0) : Int) : ℝ) := by
      rw [show fixed (cosq 0) = 2 ^ 1074 by decide +kernel, Nat.cast_zero, mul_zero, zero_div, Real.cos_zero,
        mul_one, Int.cast_pow, Int.cast_ofNat]
    rw [hone]
    exact isNearest_fixed (by decide)
  · obtain hlt | rfl := Nat.lt_or_eq_of_le hi
    · exact isNearest_cosq_inner i hpos hlt
    · have hzero : 2 ^ 1074 * cos (pi * (32 : Nat) / 64) = ((fixed (cosq 32) : Int) : ℝ) := by
        rw [show fixed (cosq 32) = 0 by decide, show pi * (32 : Nat) / 64 = pi / 2 by push_cast; ring,
          Real.cos_pi_div_two, mul_zero, Int.cast_zero]
      rw [hzero]
      exact isNearest_fixed (by decide)

/-! The folding (R99) -/

/-- A multiple of π/64 at the other end of a half turn has the opposite cosine. -/
theorem isNearest_neg_cosq (m i : Nat) (h : m + i = 64 ∨ m = i + 64) (hi : i ≤ 32) :
    IsNearest (neg (cosq i)) (2 ^ 1074 * cos (pi * m / 64)) := by
  have hcos : cos (pi * m / 64) = -cos (pi * i / 64) := by
    obtain h | rfl := h
    · have hm : (m : ℝ) = 64 - i := by
        rw [eq_sub_iff_add_eq]
        exact_mod_cast h
      rw [hm, ← Real.cos_pi_sub]
      ring_nf
    · rw [← Real.cos_add_pi]
      push_cast
      ring_nf
  rw [hcos, mul_neg]
  exact (isNearest_cosq i hi).neg

theorem isNearest_cosang (j : Nat) : IsNearest (cosang j) (2 ^ 1074 * cos (pi * j / 64)) := by
  have hperiod : cos (pi * j / 64) = cos (pi * (j % 128 : Nat) / 64) := by
    conv_lhs => rw [← Nat.mod_add_div j 128]
    rw [← Real.cos_add_nat_mul_two_pi (pi * (j % 128 : Nat) / 64) (j / 128)]
    push_cast
    ring_nf
  have hm : j % 128 < 128 := Nat.mod_lt _ (by norm_num)
  rw [hperiod]
  unfold cosang
  generalize j % 128 = m at hm
  dsimp only
  split
  · next h => exact isNearest_cosq m h
  · split
    · exact isNearest_neg_cosq m (64 - m) (by omega) (by omega)
    · split
      · exact isNearest_neg_cosq m (m - 64) (by omega) (by omega)
      · have hcos : cos (pi * m / 64) = cos (pi * (128 - m : Nat) / 64) := by
          rw [← Real.cos_two_pi_sub, Nat.cast_sub hm.le]
          push_cast
          ring_nf
        rw [hcos]
        exact isNearest_cosq (128 - m) (by omega)

end Sys2Proof.Machine
end

section
/-! PROOFS. The statements about the arithmetic and the cosine ROM (40_numerics.md). -/

namespace Sys2Proof.Proofs

open Sys2Proof.Machine

/-- Settles O35: the threshold, the least tie and the nearest magnitude between them. -/
theorem roundingIsNearestTiesToEven : Obligations.RoundingIsNearestTiesToEven := by
  intro s n k
  refine ⟨round64_zero s k, round64_of_ge n k s, round64_of_le n k s, fun h0 hlt => ?_⟩
  refine ⟨isFinite_round64 s hlt, signBit_round64 s n k, fun w _ => ?_⟩
  obtain ⟨hle, heven⟩ := round64_nearest s hlt w
  exact ⟨hle, fun heq hne => (fracField_round64_mod_two s hlt h0.ne').trans (heven heq hne)⟩

/-- Settles O36: the rows of finite operands, and that a finite rounding is nearest. -/
theorem finiteSumsAndProductsAreNearest : Obligations.FiniteSumsAndProductsAreNearest := by
  intro a b ha hb
  have hb' : isFinite (neg b) = true := (isFinite_neg b).trans hb
  rw [fsub_eq_fadd_neg, sub_eq_add_neg, ← fixed_neg]
  refine ⟨fun h => ?_, fun h => ?_, fmul_eq_round64 ha hb, fun w _ => ?_⟩
  · rw [fadd_finite_finite a b ha hb, if_neg h]
  · rw [fadd_finite_finite a _ ha hb', if_neg h]
  · exact ⟨fun h => fadd_nearest ha hb h w, fun h => fadd_nearest ha hb' h w, fun h => fmul_nearest ha hb h w⟩

/-- Settles O38: each operation answers `cnan` on a NaN, and where its own result is one. -/
theorem everyNaNResultIsCanonical : Obligations.EveryNaNResultIsCanonical := by
  intro a b
  rw [fsub_eq_fadd_neg]
  refine ⟨fadd_eq_cnan a b, fadd_eq_cnan a (neg b), fmul_eq_cnan a b, fun h => ?_⟩
  exact ⟨fadd_of_isNaN a b h, fadd_of_isNaN a (neg b) (by rwa [isNaN_neg]), fmul_of_isNaN a b h⟩

/-- Settles O39: two subnormals or zeros add to less than 2^53 units. -/
theorem subnormalSumsAreExact : Obligations.SubnormalSumsAreExact := by
  intro a b ha hb
  have hfin (p : Word) (hp : expField p = 0) : isFinite p = true ∧ (fixed p).natAbs < 2 ^ 52 := by
    refine ⟨(isFinite_iff_expField_lt p).2 (by omega), ?_⟩
    rw [natAbs_fixed, magnitude, if_pos hp]
    exact fracField_lt p
  obtain ⟨hfa, hsa⟩ := hfin a ha
  obtain ⟨hfb, hsb⟩ := hfin b hb
  obtain ⟨hfn, hsn⟩ := hfin (neg b) (by rwa [expField_neg])
  obtain ⟨hadd, hval⟩ := fadd_of_small hfa hfb (by omega)
  obtain ⟨hsub, hval'⟩ := fadd_of_small hfa hfn (by omega)
  rw [fsub_eq_fadd_neg, sub_eq_add_neg, ← fixed_neg]
  exact ⟨hadd, hval, hsub, hval'⟩

/-- Settles O37, row by row. -/
theorem arithmeticConsequencesOfTheCaseTables : Obligations.ArithmeticConsequencesOfTheCaseTables := by
  refine ⟨fun a b => ⟨fadd_comm a b, fmul_comm a b⟩, infinity_rows, fun a b _ => fsub_eq_fadd_neg a b,
    fun a b ha hb => ?_, ?_, fun x hx => ?_, fun a ha => ?_, fmul_neg_left⟩
  · have hmag := (magnitude_eq_zero a).2 ha
    rw [fmul_finite_finite a b (isFinite_of_isZero a ha) hb, hmag, Nat.zero_mul, round64_zero]
  · decide
  · rw [fadd_finite_finite x (neg x) hx (by rwa [isFinite_neg]), fixed_neg, if_pos (add_neg_cancel _)]
    cases hs : signBit x <;> simp [hs]
  · exact ⟨fmul_one a ha, fmul_neg_one a ha, zero_fadd a ha⟩

/-- Settles O40: the two exact words are closed facts, and all are nearest. -/
theorem cosineRomIsCorrectlyRounded : Obligations.CosineRomIsCorrectlyRounded :=
  ⟨by decide, by decide, isNearest_cosq⟩

/-- Settles O41: the folding keeps the cosine or negates it, and nearness goes along with both. -/
theorem foldedCosineIsCorrectlyRounded : Obligations.FoldedCosineIsCorrectlyRounded := isNearest_cosang

/-- Settles O42: the tables are closed lists, and `sinq` is its own definition. -/
theorem twiddlesAreReadFromTheRom : Obligations.TwiddlesAreReadFromTheRom :=
  ⟨by decide, by decide, fun _ _ => rfl⟩

end Sys2Proof.Proofs
end

section
/-! SUPPORT. The chain of the direct unit (R111): which operands leave the accumulator as it is, and what the chain is
around one term. -/

namespace Sys2Proof.Machine

/-! Additions that keep the accumulator, and those that give -0 (R93) -/

@[simp] theorem isFinite_cnan : isFinite cnan = false := by decide

section
variable {a b : Word}

theorem isFinite_left_of_fadd (h : isFinite (fadd a b) = true) : isFinite a = true := by
  obtain ha | ⟨s, rfl⟩ | ha := class_cases a
  · simp [fadd_of_isNaN a b (.inl ha)] at h
  · obtain hb | ⟨t, rfl⟩ | hb := class_cases b
    · simp [fadd_of_isNaN _ b (.inr hb)] at h
    · rw [fadd_infOf_infOf] at h
      split at h <;> simp at h
    · simp [fadd_infOf_finite b s hb] at h
  · exact ha

/-- A sum is finite only of finite operands. -/
theorem isFinite_of_fadd (h : isFinite (fadd a b) = true) : isFinite a = true ∧ isFinite b = true :=
  ⟨isFinite_left_of_fadd h, isFinite_left_of_fadd (fadd_comm a b ▸ h)⟩

/-- A sum does not underflow: the least value of the sum's sign would be nearer than a zero (R95). -/
theorem fixed_add_eq_zero_of_isZero_fadd (h : isZero (fadd a b) = true) : fixed a + fixed b = 0 := by
  have hfin := isFinite_of_isZero _ h
  obtain ⟨ha, hb⟩ := isFinite_of_fadd hfin
  have hpos := fadd_nearest ha hb hfin 0x0000000000000001
  have hneg := fadd_nearest ha hb hfin 0x8000000000000001
  rw [(fixed_eq_zero _).2 h] at hpos hneg
  rw [show fixed 0x0000000000000001 = 1 by decide] at hpos
  rw [show fixed 0x8000000000000001 = -1 by decide] at hneg
  simp only [Int.abs_eq_natAbs] at hpos hneg
  omega

/-- Only -0 plus -0 is -0 (R93, R115). -/
theorem fadd_ne_zeroOf_true (ha : a ≠ zeroOf true) : fadd a b ≠ zeroOf true := by
  intro h
  obtain ⟨hfa, hfb⟩ := isFinite_of_fadd (a := a) (b := b) (by rw [h, isFinite_zeroOf])
  have hsum : fixed a + fixed b = 0 := fixed_add_eq_zero_of_isZero_fadd (by rw [h, isZero_zeroOf])
  rw [fadd_finite_finite a b hfa hfb, if_pos hsum] at h
  have hsign := congrArg signBit h
  simp only [signBit_zeroOf, Bool.and_eq_true] at hsign
  obtain ⟨⟨⟨hza, -⟩, hsa⟩, -⟩ := hsign
  exact ha (hsa ▸ (isZero_iff a).1 hza)

/-- A zero of either sign is neutral, but for -0 and for a NaN that is not canonical (R93, R94). -/
theorem fadd_zeroOf (t : Bool) (hz : a ≠ zeroOf true) (hn : isNaN a = true → a = cnan) : fadd a (zeroOf t) = a := by
  obtain ha | ⟨s, rfl⟩ | ha := class_cases a
  · rw [fadd_of_isNaN a _ (.inl ha), hn ha]
  · exact fadd_infOf_finite _ s (isFinite_zeroOf t)
  · have hsign : (isZero a && signBit a) = false := by
      by_contra h
      obtain ⟨hza, hsa⟩ := Bool.and_eq_true_iff.1 (Bool.eq_true_of_not_eq_false h)
      exact hz (hsa ▸ (isZero_iff a).1 hza)
    have hsum (t : Bool) : fadd a (zeroOf t) =
        if fixed a = 0 then zeroOf false else round64 (decide (fixed a < 0)) (fixed a).natAbs 0 := by
      rw [fadd_finite_finite a _ ha (isFinite_zeroOf t)]
      simp [hsign]
    rw [hsum, ← hsum false, fadd_comm, zero_fadd a ((isFinite_iff a).1 ha).1 hz]

/-! Products with a constant of the ROM -/

theorem fmul_zero_left (ha : isZero a = true) (hb : isFinite b = true) : fmul a b = zeroOf (signBit a != signBit b) :=
  fmul_of_eq_zero (isFinite_of_isZero a ha) hb (by rw [(fixed_eq_zero a).2 ha, zero_mul])

/-- A factor of magnitude at most 1 does not overflow. -/
theorem isFinite_fmul (ha : isFinite a = true) (hb : isFinite b = true) (hle : magnitude b ≤ 2 ^ 1074) :
    isFinite (fmul a b) = true := by
  rw [fmul_finite_finite a b ha hb]
  exact isFinite_round64 _ ((Nat.mul_le_mul_left _ hle).trans_lt (magnitude_mul_lt a 1074 ha))

end

theorem cosang_mod (j : Nat) : cosang (j % 128) = cosang j := by
  rw [cosang, cosang, Nat.mod_mod]

theorem isFinite_cosang (j : Nat) : isFinite (cosang j) = true := (isNearest_cosang j).1

theorem magnitude_cosang_le (j : Nat) : magnitude (cosang j) ≤ 2 ^ 1074 := by
  have hall : ∀ m < 128, magnitude (cosang m) ≤ 2 ^ 1074 := by decide +kernel
  rw [← cosang_mod]
  exact hall _ (Nat.mod_lt _ (by norm_num))

/-- The constant is a zero only at the odd multiples of a quarter turn (R99). -/
theorem isZero_cosang_iff (j : Nat) : isZero (cosang j) = true ↔ j % 64 = 32 := by
  have hall : ∀ m < 128, isZero (cosang m) = true ↔ m % 64 = 32 := by decide +kernel
  rw [← cosang_mod, hall _ (Nat.mod_lt _ (by norm_num)), Nat.mod_mod_of_dvd _ (by norm_num)]

/-- No bin of the direct unit reads a zero constant: an odd number times k is 32 mod 64 only where 32 divides k. -/
theorem isZero_cosang_odd_mul (n : Nat) (k : Fin 32) : isZero (cosang ((2 * n + 1) * k)) = false := by
  rw [Bool.eq_false_iff, ne_eq, isZero_cosang_iff]
  intro h
  have hcop : Nat.Coprime (2 ^ 5) (2 * n + 1) := Nat.Coprime.pow_left 5 (Nat.coprime_two_left.2 ⟨n, rfl⟩)
  have hdvd : 2 ^ 5 ∣ k.val := hcop.dvd_of_dvd_mul_left (by omega)
  rw [Nat.eq_zero_of_dvd_of_lt hdvd k.isLt] at h
  simp at h

/-! The chain -/

theorem dctDirect_getElem (x : Vector Word 32) (k : Fin 32) : (dctDirect x)[k] = dctBin x k := by
  simp [dctDirect]

section
variable (x : Vector Word 32) (k : Nat)

/-- Terms that each keep the accumulator keep it together. -/
theorem foldl_dctMac_of_keep (acc : Word) (ns : List (Fin 32)) (h : ∀ n ∈ ns, dctMac x k acc n = acc) :
    ns.foldl (dctMac x k) acc = acc := by
  induction ns with
  | nil => rfl
  | cons n ns ih =>
    rw [List.foldl_cons, h n List.mem_cons_self]
    exact ih fun i hi => h i (List.mem_cons_of_mem n hi)

theorem dctMac_cnan (n : Fin 32) : dctMac x k cnan n = cnan := fadd_of_isNaN _ _ (.inl isNaN_cnan)

/-- A zero sample of either sign keeps what a chain from +0 can hold. -/
theorem dctMac_of_isZero (acc : Word) (n : Fin 32) (h : isZero x[n] = true) (hz : acc ≠ zeroOf true)
    (hn : isNaN acc = true → acc = cnan) : dctMac x k acc n = acc := by
  rw [dctMac, fmul_zero_left h (isFinite_cosang _), fadd_zeroOf _ hz hn]

/-- A finite sample keeps an infinity, since its product with a constant is finite. -/
theorem dctMac_infOf (s : Bool) (n : Fin 32) (h : isFinite x[n] = true) : dctMac x k (infOf s) n = infOf s :=
  fadd_infOf_finite _ s (isFinite_fmul h (isFinite_cosang _) (magnitude_cosang_le _))

/-- The accumulator starts at +0 and never becomes -0 (R115). -/
theorem foldl_dctMac_ne_zeroOf_true (acc : Word) (ns : List (Fin 32)) (h : acc ≠ zeroOf true) :
    ns.foldl (dctMac x k) acc ≠ zeroOf true :=
  List.foldlRecOn (motive := fun w => w ≠ zeroOf true) ns _ h fun _ hw _ _ => fadd_ne_zeroOf_true hw

/-- A term of the constant 1.0 adds the sample itself, or the canonical NaN for any NaN. -/
theorem dctMac_bin_zero (acc : Word) (n : Fin 32) : dctMac x 0 acc n = fadd acc x[n] := by
  rw [dctMac, Nat.mul_zero, show cosang 0 = 0x3FF0000000000000 by decide]
  cases hn : isNaN x[n] with
  | true => rw [fadd_of_isNaN acc x[n] (.inr hn), fmul_of_isNaN _ _ (.inl hn), fadd_of_isNaN _ _ (.inr isNaN_cnan)]
  | false => rw [fmul_one _ hn]

/-- The chain around term `m` (R111). -/
theorem dctBin_split (m : Fin 32) :
    dctBin x k = ((List.finRange 32).drop (m + 1)).foldl (dctMac x k)
      (dctMac x k (((List.finRange 32).take m).foldl (dctMac x k) 0) m) := by
  have hdrop : (List.finRange 32).drop m = m :: (List.finRange 32).drop (m + 1) := by
    rw [List.drop_eq_getElem_cons (by simp)]
    simp
  rw [← List.foldl_cons, ← hdrop, ← List.foldl_append, List.take_append_drop, dctBin]

end

/-- Term `m` is neither among those before it nor among those after it. -/
theorem ne_of_mem_take_or_drop {m n : Fin 32}
    (h : n ∈ (List.finRange 32).take m ∨ n ∈ (List.finRange 32).drop (m + 1)) : n ≠ m := by
  obtain h | h := h
  · rw [List.mem_take_iff_idxOf_lt (List.mem_finRange n), List.idxOf_finRange] at h
    omega
  · rw [List.mem_iff_getElem] at h
    obtain ⟨i, hi, rfl⟩ := h
    simp only [List.getElem_drop, List.getElem_finRange, Fin.cast_mk, ne_eq, Fin.ext_iff]
    omega

end Sys2Proof.Machine
end

section
/-! SUPPORT. How a NaN spreads through the fast unit (R135): a butterfly carries it from either operand to both, and the
schedule carries it from any element to all. -/

namespace Sys2Proof.Machine

theorem isNaN_fadd (a b : Word) (h : isNaN a = true ∨ isNaN b = true) : isNaN (fadd a b) = true := by
  rw [fadd_of_isNaN a b h, isNaN_cnan]

theorem isNaN_fsub (a b : Word) (h : isNaN a = true ∨ isNaN b = true) : isNaN (fsub a b) = true := by
  rw [fsub_eq_fadd_neg]
  exact isNaN_fadd a (neg b) (by rwa [isNaN_neg])

theorem isNaN_fmul (a b : Word) (h : isNaN a = true ∨ isNaN b = true) : isNaN (fmul a b) = true := by
  rw [fmul_of_isNaN a b h, isNaN_cnan]

/-- A part of the element is a NaN. -/
def Cplx.HasNaN (c : Cplx) : Prop := isNaN c.re = true ∨ isNaN c.im = true

/-- A NaN of `u` stays in its part, a NaN of `b` goes through the twiddle into both (R129). -/
theorem bflyPair_hasNaN (t : Nat) (u b : Cplx) (h : u.HasNaN ∨ b.HasNaN) :
    (bflyPair t u b).1.HasNaN ∧ (bflyPair t u b).2.HasNaN := by
  obtain (hre | him) | hb := h
  · exact ⟨.inl (isNaN_fadd _ _ (.inl hre)), .inl (isNaN_fsub _ _ (.inl hre))⟩
  · exact ⟨.inr (isNaN_fadd _ _ (.inl him)), .inr (isNaN_fsub _ _ (.inl him))⟩
  · have hprod (w : Word) : isNaN (fmul (twiddleRe t) b.re) = true ∨ isNaN (fmul w b.im) = true :=
      hb.imp (fun h => isNaN_fmul _ _ (.inr h)) (fun h => isNaN_fmul _ _ (.inr h))
    have htr := isNaN_fsub _ _ (hprod (twiddleIm t))
    exact ⟨.inl (isNaN_fadd _ _ (.inr htr)), .inl (isNaN_fsub _ _ (.inr htr))⟩

@[simp] theorem length_bfly (a : List Cplx) (i : BflyIndex) : (bfly a i).length = a.length := by simp [bfly]

/-- What a butterfly writes, and what it leaves (R129). -/
theorem cplxAt_bfly (a : List Cplx) (i : BflyIndex) (hp : i.p < a.length) (hq : i.q < a.length) (e : Nat) :
    cplxAt (bfly a i) e =
      if e = i.q then (bflyPair i.t (cplxAt a i.p) (cplxAt a i.q)).2
      else if e = i.p then (bflyPair i.t (cplxAt a i.p) (cplxAt a i.q)).1
      else cplxAt a e := by
  unfold bfly cplxAt
  by_cases heq : e = i.q
  · simp [heq, hq]
  · by_cases hep : e = i.p
    · have hne : i.p ≠ i.q := hep ▸ heq
      simp [hep, hp, hne, hne.symm]
    · simp [heq, hep, Ne.symm heq, Ne.symm hep]

/-- The elements that a butterfly leaves with a NaN, as the bits of a mask, given those that have one before it. -/
def spread (mask : Nat) (i : BflyIndex) : Nat :=
  if mask.testBit i.p || mask.testBit i.q then mask ||| 2 ^ i.p ||| 2 ^ i.q else mask

/-- Every element that the mask names has a NaN. -/
def HasNaNsAt (mask : Nat) (a : List Cplx) : Prop := ∀ e, mask.testBit e = true → (cplxAt a e).HasNaN

theorem HasNaNsAt.bfly {mask : Nat} {a : List Cplx} (h : HasNaNsAt mask a) (i : BflyIndex) (hp : i.p < a.length)
    (hq : i.q < a.length) : HasNaNsAt (spread mask i) (bfly a i) := by
  intro e he
  rw [cplxAt_bfly a i hp hq]
  by_cases hany : mask.testBit i.p = true ∨ mask.testBit i.q = true
  · obtain ⟨hfst, hsnd⟩ := bflyPair_hasNaN i.t _ _ (hany.imp (h i.p) (h i.q))
    split
    · exact hsnd
    · next heq =>
      split
      · exact hfst
      · next hep =>
        refine h e ?_
        simpa [spread, hany, Nat.testBit_or, Nat.testBit_two_pow, Ne.symm heq, Ne.symm hep] using he
  · have hmask : mask.testBit e = true := by simpa [spread, hany] using he
    have heq : e ≠ i.q := fun heq => hany (.inr (heq ▸ hmask))
    have hep : e ≠ i.p := fun hep => hany (.inl (hep ▸ hmask))
    rw [if_neg heq, if_neg hep]
    exact h e hmask

theorem HasNaNsAt.foldl_bfly (is : List BflyIndex) {mask : Nat} {a : List Cplx} (h : HasNaNsAt mask a)
    (hin : ∀ i ∈ is, i.p < a.length ∧ i.q < a.length) :
    HasNaNsAt (is.foldl spread mask) (is.foldl Machine.bfly a) := by
  induction is generalizing mask a with
  | nil => exact h
  | cons i is ih =>
    obtain ⟨hp, hq⟩ := hin i List.mem_cons_self
    refine ih (h.bfly i hp hq) fun j hj => ?_
    rw [length_bfly]
    exact hin j (List.mem_cons_of_mem i hj)

/-- The schedule connects each of the 32 elements to all of them (R130). -/
theorem foldl_spread_fftSchedule : ∀ e < 32, fftSchedule.foldl spread (2 ^ e) = 2 ^ 32 - 1 := by decide +kernel

theorem fftSchedule_lt : ∀ i ∈ fftSchedule, i.p < 32 ∧ i.q < 32 := by decide

/-- One NaN in the work array is in every element after the five stages. -/
theorem hasNaN_foldl_fftSchedule (a : List Cplx) (hlen : a.length = 32) (e : Nat) (he : e < 32)
    (h : (cplxAt a e).HasNaN) (k : Nat) (hk : k < 32) : (cplxAt (fftSchedule.foldl bfly a) k).HasNaN := by
  have hone : HasNaNsAt (2 ^ e) a := fun j hj => by
    rw [Nat.testBit_two_pow, decide_eq_true_eq] at hj
    exact hj ▸ h
  have hall := hone.foldl_bfly fftSchedule (hlen ▸ fftSchedule_lt)
  rw [foldl_spread_fftSchedule e he] at hall
  exact hall k (by rw [Nat.testBit_two_pow_sub_one, decide_eq_true hk])

/-- Every sample is loaded into one element of the work array (R127, R128). -/
theorem exists_load_eq (x : Vector Word 32) (m : Fin 32) : ∃ e < 32, (cplxAt (fftLoad (fold x)) e).re = x[m] := by
  have hall : ∀ m < 32, ∃ e < 32, brev5 e < 32 ∧ foldIndex (brev5 e) = m := by decide
  obtain ⟨e, he, hb, hm⟩ := hall m m.isLt
  exact ⟨e, he, by simp [cplxAt, fftLoad, fold, he, hb, hm]⟩

theorem hasNaN_fft32 (x : Vector Word 32) (m k : Fin 32) (h : isNaN x[m] = true) :
    (cplxAt (fft32 (fold x)) k).HasNaN := by
  obtain ⟨e, he, hre⟩ := exists_load_eq x m
  exact hasNaN_foldl_fftSchedule _ (by simp [fftLoad]) e he (.inl (hre ▸ h)) k k.isLt

theorem dctFast_getElem (x : Vector Word 32) (k : Fin 32) : (dctFast x)[k] = postTwiddle (fft32 (fold x)) k := by
  simp [dctFast]

/-- Both parts of an element are read by its bin (R131). -/
theorem postTwiddle_of_hasNaN (a : List Cplx) (k : Nat) (h : (cplxAt a k).HasNaN) : postTwiddle a k = cnan :=
  fadd_of_isNaN _ _ (h.imp (fun h => isNaN_fmul _ _ (.inr h)) (fun h => isNaN_fmul _ _ (.inr h)))

end Sys2Proof.Machine
end

section
/-! PROOFS. The statements about the direct unit (41_dct_direct.md). -/

namespace Sys2Proof.Proofs

open Sys2Proof.Machine

/-- Settles O43: zeros keep the accumulator +0, and no sum that starts from another word than -0 is -0. -/
theorem directUnitMapsZerosToZeroAndNeverGivesMinusZero :
    Obligations.DirectUnitMapsZerosToZeroAndNeverGivesMinusZero := by
  intro x k
  rw [dctDirect_getElem]
  refine ⟨fun hx => foldl_dctMac_of_keep x k 0 _ fun n _ => ?_, ?_⟩
  · exact dctMac_of_isZero x k 0 n (hx n) (by decide) (by decide)
  · exact foldl_dctMac_ne_zeroOf_true x k 0 _ (by decide)

/-- Settles O44: bin 0 multiplies by 1.0, and the zeros around an impulse keep the accumulator. -/
theorem directUnitOnImpulsesAndBinZero : Obligations.DirectUnitOnImpulsesAndBinZero := by
  refine ⟨fun x => ?_, fun a m k => ?_⟩
  · have hlist : x.toList = (List.finRange 32).map (x[·]) := List.ext_getElem (by simp) (by simp)
    rw [hlist, List.foldl_map]
    refine (dctDirect_getElem x 0).trans ?_
    exact List.foldl_ext _ _ _ fun acc n _ => dctMac_bin_zero x acc n
  · have hzero (n : Fin 32) (hn : n ≠ m) : isZero ((Vector.replicate 32 (0 : Word)).set m a)[n] = true := by
      have hne : m.val ≠ n.val := fun h => hn (Fin.ext h.symm)
      simp only [Fin.getElem_fin, Vector.getElem_set_ne _ _ hne, Vector.getElem_replicate]
      decide
    have hset : ((Vector.replicate 32 (0 : Word)).set m a)[m] = a := by simp
    rw [dctDirect_getElem, dctBin_split _ k m, foldl_dctMac_of_keep _ _ 0, dctMac, hset]
    · refine foldl_dctMac_of_keep _ _ _ _ fun n hn => dctMac_of_isZero _ _ _ n ?_ ?_ (fadd_eq_cnan _ _)
      · exact hzero n (ne_of_mem_take_or_drop (.inr hn))
      · exact fadd_ne_zeroOf_true (by decide)
    · intro n hn
      exact dctMac_of_isZero _ _ _ n (hzero n (ne_of_mem_take_or_drop (.inl hn))) (by decide) (by decide)

/-- Settles O45: in the direct unit the term of the NaN makes the accumulator the canonical NaN, which every later term
keeps; in the fast unit the NaN reaches every element before the last products. -/
theorem oneNaNMakesEveryBinCanonicalNaN : Obligations.OneNaNMakesEveryBinCanonicalNaN := by
  intro x m k hm
  constructor
  · have hterm (acc : Word) : dctMac x k acc m = cnan :=
      fadd_of_isNaN _ _ (.inr (isNaN_fmul _ _ (.inl hm)))
    rw [dctDirect_getElem, dctBin_split x k m, hterm]
    exact foldl_dctMac_of_keep x k _ _ fun n _ => dctMac_cnan x k n
  · rw [dctFast_getElem]
    exact postTwiddle_of_hasNaN _ k (hasNaN_fft32 x m k hm)

/-- Settles O46: term `m` makes the accumulator the infinity, and the finite samples after it keep it. -/
theorem directUnitOnOneInfinity : Obligations.DirectUnitOnOneInfinity := by
  intro x m k hinf hfin hbefore
  have hc := isFinite_cosang ((2 * m.val + 1) * k.val)
  rw [dctDirect_getElem, dctBin_split x k m]
  have hterm : fmul x[m] (cosang ((2 * m + 1) * k)) = infOf (signBit x[m] != signBit (cosang ((2 * m + 1) * k))) := by
    conv_lhs => rw [eq_infOf _ hinf]
    exact fmul_infOf _ _ ((isFinite_iff _).1 hc).1 (isZero_cosang_odd_mul m k)
  rw [dctMac, hterm, fadd_finite_infOf _ _ hbefore]
  exact foldl_dctMac_of_keep x k _ _ fun n hn => dctMac_infOf x k _ n (hfin n (ne_of_mem_take_or_drop (.inr hn)))

/-- Settles O6: with LEN = 32 the chain is `dctBin`. -/
theorem dctDirectCompletesWithTheChain : Obligations.DctDirectCompletesWithTheChain := by
  intro s hl
  refine ⟨dctDirect s.sb, ?_, fun k => ?_⟩
  · have hx : exec .dctDirect s = .next (completeTransform (dctDirect s.sb) s) := if_pos hl
    rw [hx, ← hl]
    rfl
  · rw [dctDirect_getElem]
    rfl

end Sys2Proof.Proofs
end

section
/-! SUPPORT. Where the fold and the load place the samples (R127, R128), and which butterflies a stage has (R130). -/

namespace Sys2Proof.Machine

theorem length_fold (x : Vector Word 32) : (fold x).length = 32 := by simp [fold]

theorem length_fftLoad (v : List Word) : (fftLoad v).length = 32 := by simp [fftLoad]

theorem foldIndex_lt (i : Nat) (hi : i < 32) : foldIndex i < 32 := by unfold foldIndex; split <;> omega

/-- Element `i` of the folded block (R127). -/
theorem fold_getElem? (x : Vector Word 32) (i : Nat) (hi : i < 32) :
    (fold x)[i]? = some (x[foldIndex i]'(foldIndex_lt i hi)) := by
  simp [fold, hi, foldIndex_lt i hi]

theorem brev5_lt (n : Nat) : brev5 n < 32 := by unfold brev5; omega

theorem brev5_brev5 : ∀ n < 32, brev5 (brev5 n) = n := by decide

theorem testBit_brev5 : ∀ n < 32, ∀ b < 5, (brev5 n).testBit b = n.testBit (4 - b) := by decide

theorem cplxAt_fftLoad (v : List Word) (i : Nat) (hi : i < 32) : cplxAt (fftLoad v) i = ⟨v.getD (brev5 i) 0, 0⟩ := by
  simp [cplxAt, fftLoad, hi]

/-- The elements that a list of butterflies touches. -/
def touched (is : List BflyIndex) : List Nat := is.flatMap fun i => [i.p, i.q]

/-- The butterflies of stage `s + 1`: one for each block and each place in the first half of a block (R130). -/
theorem mem_fftStage_succ (s b j : Nat) (hb : b < 32 / 2 ^ (s + 1)) (hj : j < 2 ^ s) :
    (⟨b * 2 ^ (s + 1) + j, b * 2 ^ (s + 1) + j + 2 ^ s, j * (32 / 2 ^ (s + 1))⟩ : BflyIndex) ∈ fftStage (s + 1) := by
  have hhalf : 2 ^ (s + 1) / 2 = 2 ^ s := by rw [pow_succ, Nat.mul_div_cancel _ two_pos]
  simp only [fftStage, List.mem_flatMap, List.mem_map, List.mem_range, hhalf]
  exact ⟨b, hb, j, hj, rfl⟩

theorem nodup_touched_fftStage : ∀ s ∈ [1, 2, 3, 4, 5], (touched (fftStage s)).Nodup := by decide

end Sys2Proof.Machine
end

section
/-! SUPPORT. Zeros through the fast unit (R135): every constant it multiplies by is finite, so a butterfly of zeros writes
zeros. -/

namespace Sys2Proof.Machine

/-! Zeros and the constants of the twiddles -/

theorem isZero_fadd {a b : Word} (ha : isZero a = true) (hb : isZero b = true) : isZero (fadd a b) = true := by
  have hsum : fixed a + fixed b = 0 := by rw [(fixed_eq_zero a).2 ha, (fixed_eq_zero b).2 hb, add_zero]
  rw [fadd_finite_finite a b (isFinite_of_isZero a ha) (isFinite_of_isZero b hb), if_pos hsum, isZero_zeroOf]

theorem isZero_fsub {a b : Word} (ha : isZero a = true) (hb : isZero b = true) : isZero (fsub a b) = true := by
  rw [fsub_eq_fadd_neg]
  exact isZero_fadd ha (by rwa [isZero_neg])

theorem isZero_fmul {a b : Word} (ha : isFinite a = true) (hb : isZero b = true) : isZero (fmul a b) = true := by
  rw [fmul_comm, fmul_zero_left hb ha, isZero_zeroOf]

/-- Beyond the ROM `cosq` is a zero, so that no index gives an infinity or a NaN (R97). -/
theorem isFinite_cosq (i : Nat) : isFinite (cosq i) = true := by
  by_cases hi : i ≤ 32
  · exact (isNearest_cosq i hi).1
  · have hnone : cosq i = 0 := List.getD_eq_default _ _ (by simp [cosqTable]; omega)
    rw [hnone]
    decide

theorem isFinite_twiddleRe (t : Nat) : isFinite (twiddleRe t) = true := isFinite_cosang _

theorem isFinite_twiddleIm (t : Nat) : isFinite (twiddleIm t) = true := by
  unfold twiddleIm
  split
  · decide
  · rw [isFinite_neg]
    exact isFinite_cosq _

/-! Zeros in the work array -/

/-- Both parts of the element are zeros, of any signs. -/
def Cplx.IsZero (c : Cplx) : Prop := isZero c.re = true ∧ isZero c.im = true

theorem Cplx.isZero_default : Cplx.IsZero ⟨0, 0⟩ := by unfold Cplx.IsZero; decide

theorem bflyPair_isZero (t : Nat) {u b : Cplx} (hu : u.IsZero) (hb : b.IsZero) :
    (bflyPair t u b).1.IsZero ∧ (bflyPair t u b).2.IsZero := by
  obtain ⟨hure, huim⟩ := hu
  obtain ⟨hbre, hbim⟩ := hb
  have htr := isZero_fsub (isZero_fmul (isFinite_twiddleRe t) hbre) (isZero_fmul (isFinite_twiddleIm t) hbim)
  have hti := isZero_fadd (isZero_fmul (isFinite_twiddleRe t) hbim) (isZero_fmul (isFinite_twiddleIm t) hbre)
  exact ⟨⟨isZero_fadd hure htr, isZero_fadd huim hti⟩, ⟨isZero_fsub hure htr, isZero_fsub huim hti⟩⟩

/-- Every element of the work array is a zero. -/
def AllZero (a : List Cplx) : Prop := ∀ c ∈ a, c.IsZero

theorem AllZero.cplxAt {a : List Cplx} (h : AllZero a) (e : Nat) : (cplxAt a e).IsZero := by
  by_cases he : e < a.length
  · rw [Machine.cplxAt, List.getD_eq_getElem _ _ he]
    exact h _ (List.getElem_mem he)
  · rw [Machine.cplxAt, List.getD_eq_default _ _ (not_lt.1 he)]
    exact Cplx.isZero_default

theorem AllZero.set {a : List Cplx} (h : AllZero a) (e : Nat) {c : Cplx} (hc : c.IsZero) : AllZero (a.set e c) := by
  intro d hd
  obtain hd | rfl := List.mem_or_eq_of_mem_set hd
  · exact h d hd
  · exact hc

theorem AllZero.bfly {a : List Cplx} (h : AllZero a) (i : BflyIndex) : AllZero (bfly a i) := by
  obtain ⟨hfst, hsnd⟩ := bflyPair_isZero i.t (h.cplxAt i.p) (h.cplxAt i.q)
  exact (h.set i.p hfst).set i.q hsnd

theorem isZero_fold (x : Vector Word 32) (hx : ∀ n : Fin 32, isZero x[n] = true) (i : Nat) :
    isZero ((fold x).getD i 0) = true := by
  rw [List.getD_eq_getElem?_getD]
  by_cases hi : i < 32
  · rw [fold_getElem? x i hi]
    exact hx ⟨_, foldIndex_lt i hi⟩
  · rw [List.getElem?_eq_none (by simpa [length_fold] using hi)]
    decide

theorem allZero_fftLoad (v : List Word) (hv : ∀ i, isZero (v.getD i 0) = true) : AllZero (fftLoad v) := by
  intro c hc
  obtain ⟨i, -, rfl⟩ := List.mem_map.1 hc
  exact ⟨hv _, isZero_zeroOf false⟩

theorem allZero_fft32 (v : List Word) (hv : ∀ i, isZero (v.getD i 0) = true) : AllZero (fft32 v) :=
  List.foldlRecOn (motive := AllZero) fftSchedule _ (allZero_fftLoad v hv) fun _ h i _ => h.bfly i

theorem isZero_postTwiddle {a : List Cplx} (h : AllZero a) (k : Nat) : isZero (postTwiddle a k) = true := by
  obtain ⟨hre, him⟩ := h.cplxAt k
  exact isZero_fadd (isZero_fmul (isFinite_cosq _) hre) (isZero_fmul (isFinite_cosq _) him)

end Sys2Proof.Machine
end

section
/-! SUPPORT. The five stages in place compute the recursive transform (R128 to R130): after stage `s` each block of
`2 ^ s` elements is the recursive transform of the elements that the load put there. -/

namespace Sys2Proof.Machine

/-! A list of butterflies on pairwise disjoint elements -/

@[simp] theorem touched_cons (i : BflyIndex) (is : List BflyIndex) : touched (i :: is) = i.p :: i.q :: touched is := rfl

theorem mem_touched_of_mem {i : BflyIndex} {is : List BflyIndex} (h : i ∈ is) : i.p ∈ touched is ∧ i.q ∈ touched is :=
  ⟨List.mem_flatMap_of_mem h (by simp), List.mem_flatMap_of_mem h (by simp)⟩

theorem length_foldl_bfly (is : List BflyIndex) (a : List Cplx) : (is.foldl bfly a).length = a.length :=
  List.foldlRecOn (motive := fun c => c.length = a.length) is _ rfl fun c h i _ => (length_bfly c i).trans h

/-- Elements that no butterfly touches keep their value. -/
theorem cplxAt_foldl_bfly_of_not_mem (is : List BflyIndex) (a : List Cplx) (hlt : ∀ e ∈ touched is, e < a.length)
    (e : Nat) (he : e ∉ touched is) : cplxAt (is.foldl bfly a) e = cplxAt a e := by
  induction is generalizing a with
  | nil => rfl
  | cons i is ih =>
    simp only [touched_cons, List.mem_cons, not_or, forall_eq_or_imp] at hlt he
    obtain ⟨hp, hq, hlt⟩ := hlt
    obtain ⟨hep, heq, he⟩ := he
    rw [List.foldl_cons, ih (bfly a i) (by simpa using hlt) he, cplxAt_bfly a i hp hq, if_neg heq, if_neg hep]

/-- If no element is touched twice, each butterfly reads the values from before the stage (U17). -/
theorem cplxAt_foldl_bfly_of_mem (is : List BflyIndex) (a : List Cplx) (hlt : ∀ e ∈ touched is, e < a.length)
    (hnodup : (touched is).Nodup) (i : BflyIndex) (hi : i ∈ is) :
    cplxAt (is.foldl bfly a) i.p = (bflyPair i.t (cplxAt a i.p) (cplxAt a i.q)).1 ∧
    cplxAt (is.foldl bfly a) i.q = (bflyPair i.t (cplxAt a i.p) (cplxAt a i.q)).2 := by
  induction is generalizing a with
  | nil => cases hi
  | cons j is ih =>
    simp only [touched_cons, List.mem_cons, List.nodup_cons, not_or, forall_eq_or_imp] at hlt hnodup
    obtain ⟨hp, hq, hlt⟩ := hlt
    obtain ⟨⟨hpq, hpis⟩, hqis, hnodup⟩ := hnodup
    have hlt' : ∀ e ∈ touched is, e < (bfly a j).length := by simpa using hlt
    obtain rfl | hi := List.mem_cons.1 hi
    · rw [List.foldl_cons, cplxAt_foldl_bfly_of_not_mem is _ hlt' _ hpis, cplxAt_foldl_bfly_of_not_mem is _ hlt' _ hqis,
        cplxAt_bfly a i hp hq, cplxAt_bfly a i hp hq, if_neg hpq, if_pos rfl, if_pos rfl]
      exact ⟨rfl, rfl⟩
    · have hkeep (e : Nat) (he : e ∈ touched is) : cplxAt (bfly a j) e = cplxAt a e := by
        rw [cplxAt_bfly a j hp hq, if_neg (ne_of_mem_of_not_mem he hqis), if_neg (ne_of_mem_of_not_mem he hpis)]
      obtain ⟨hip, hiq⟩ := mem_touched_of_mem hi
      rw [List.foldl_cons, ← hkeep _ hip, ← hkeep _ hiq]
      exact ih _ hlt' hnodup hi

/-! The recursive transform -/

/-- The elements of `v` at the even places (`r = 0`) or at the odd ones (`r = 1`), `2 ^ l` of them. -/
def everySecond (l : Nat) (v : List Word) (r : Nat) : List Word :=
  (List.range (2 ^ l)).map fun i => v.getD (2 * i + r) 0

/-- The sum and the difference of a butterfly of the last stage are elements `j` and `j + 2 ^ l` (R130). -/
theorem cplxAt_fftRecursive_succ (l : Nat) (v : List Word) (j : Nat) (hj : j < 2 ^ l) :
    let r := bflyPair (j * (32 / 2 ^ (l + 1))) (cplxAt (fftRecursive l (everySecond l v 0)) j)
      (cplxAt (fftRecursive l (everySecond l v 1)) j)
    cplxAt (fftRecursive (l + 1) v) j = r.1 ∧ cplxAt (fftRecursive (l + 1) v) (j + 2 ^ l) = r.2 := by
  simp [fftRecursive, everySecond, cplxAt, List.getElem?_append, hj]

/-- What the load puts into block `b` of `2 ^ s` elements, in the order of the transform's input: every
`2 ^ (5 - s)`-th element of `v`, from the bit-reversed start of the block (R128). -/
def blockInput (v : List Word) (s b : Nat) : List Word :=
  (List.range (2 ^ s)).map fun i => v.getD (brev5 (b * 2 ^ s) + i * 2 ^ (5 - s)) 0

theorem blockInput_getD (v : List Word) (s b i : Nat) (hi : i < 2 ^ s) :
    (blockInput v s b).getD i 0 = v.getD (brev5 (b * 2 ^ s) + i * 2 ^ (5 - s)) 0 := by
  simp [blockInput, hi]

/-- The first half of a block starts where the block does, the second half one place of the block's input later. -/
theorem brev5_half_block : ∀ s < 5, ∀ b < 32 / 2 ^ (s + 1), ∀ r < 2,
    brev5 ((2 * b + r) * 2 ^ s) = brev5 (b * 2 ^ (s + 1)) + r * 2 ^ (4 - s) := by decide

/-- The halves of a block hold the even and the odd elements of its input. -/
theorem everySecond_blockInput (v : List Word) (s b r : Nat) (hs : s < 5) (hb : b < 32 / 2 ^ (s + 1)) (hr : r < 2) :
    everySecond s (blockInput v (s + 1) b) r = blockInput v s (2 * b + r) := by
  refine List.map_congr_left fun i hi => ?_
  rw [List.mem_range] at hi
  have hdouble : 2 ^ (5 - s) = 2 * 2 ^ (4 - s) := by rw [← pow_succ', show 5 - s = 4 - s + 1 by omega]
  rw [blockInput_getD v (s + 1) b (2 * i + r) (by rw [pow_succ]; omega), brev5_half_block s hs b hb r hr, hdouble,
    show 5 - (s + 1) = 4 - s by omega]
  congr 1
  ring

theorem blockInput_whole (v : List Word) (hlen : v.length = 32) : blockInput v 5 0 = v := by
  have hstart : brev5 0 = 0 := rfl
  refine List.ext_getElem (by simp [blockInput, hlen]) fun i _ hi => ?_
  simp [blockInput, hstart, hi]

/-! The stages -/

/-- The work array after stage `s`. -/
def fftAfter (v : List Word) : Nat → List Cplx
  | 0 => fftLoad v
  | s + 1 => (fftStage (s + 1)).foldl bfly (fftAfter v s)

theorem length_fftAfter (v : List Word) (s : Nat) : (fftAfter v s).length = 32 := by
  induction s with
  | zero => exact length_fftLoad v
  | succ s ih => rw [fftAfter, length_foldl_bfly, ih]

theorem fft32_eq_fftAfter (v : List Word) : fft32 v = fftAfter v 5 := by
  simp only [fft32, fftSchedule, List.foldl_append, fftAfter]

theorem touched_fftStage_lt : ∀ s ∈ [1, 2, 3, 4, 5], ∀ e ∈ touched (fftStage s), e < 32 := by decide

/-- What stage `s + 1` does to elements `j` and `j + 2 ^ s` of block `b`. -/
theorem cplxAt_fftAfter_succ (v : List Word) (s b j : Nat) (hs : s < 5) (hb : b < 32 / 2 ^ (s + 1)) (hj : j < 2 ^ s) :
    let r := bflyPair (j * (32 / 2 ^ (s + 1))) (cplxAt (fftAfter v s) (2 * b * 2 ^ s + j))
      (cplxAt (fftAfter v s) ((2 * b + 1) * 2 ^ s + j))
    cplxAt (fftAfter v (s + 1)) (b * 2 ^ (s + 1) + j) = r.1 ∧
    cplxAt (fftAfter v (s + 1)) (b * 2 ^ (s + 1) + (j + 2 ^ s)) = r.2 := by
  have hstage : s + 1 ∈ [1, 2, 3, 4, 5] := by simp; omega
  have hlt := touched_fftStage_lt (s + 1) hstage
  rw [← length_fftAfter v s] at hlt
  have hfirst : 2 * b * 2 ^ s + j = b * 2 ^ (s + 1) + j := by ring
  have hsecond : (2 * b + 1) * 2 ^ s + j = b * 2 ^ (s + 1) + j + 2 ^ s := by ring
  rw [hfirst, hsecond, ← add_assoc]
  exact cplxAt_foldl_bfly_of_mem _ _ hlt (nodup_touched_fftStage _ hstage) _ (mem_fftStage_succ s b j hb hj)

/-- After stage `s` block `b` is the recursive transform of its input. -/
theorem cplxAt_fftAfter (v : List Word) (s : Nat) (hs : s ≤ 5) (b j : Nat) (hb : b < 32 / 2 ^ s) (hj : j < 2 ^ s) :
    cplxAt (fftAfter v s) (b * 2 ^ s + j) = cplxAt (fftRecursive s (blockInput v s b)) j := by
  induction s generalizing b j with
  | zero =>
    obtain rfl : j = 0 := by simpa using hj
    rw [fftAfter, cplxAt_fftLoad v _ (by simpa using hb)]
    simp [fftRecursive, blockInput, cplxAt]
  | succ s ih =>
    have hblocks : 32 / 2 ^ s = 2 * (32 / 2 ^ (s + 1)) := by
      have hall : ∀ s < 5, 32 / 2 ^ s = 2 * (32 / 2 ^ (s + 1)) := by decide
      exact hall s hs
    have hstep (j : Nat) (hj : j < 2 ^ s) :
        cplxAt (fftAfter v (s + 1)) (b * 2 ^ (s + 1) + j) = cplxAt (fftRecursive (s + 1) (blockInput v (s + 1) b)) j ∧
        cplxAt (fftAfter v (s + 1)) (b * 2 ^ (s + 1) + (j + 2 ^ s)) =
          cplxAt (fftRecursive (s + 1) (blockInput v (s + 1) b)) (j + 2 ^ s) := by
      obtain ⟨hfst, hsnd⟩ := cplxAt_fftAfter_succ v s b j hs hb hj
      obtain ⟨hfst', hsnd'⟩ := cplxAt_fftRecursive_succ s (blockInput v (s + 1) b) j hj
      rw [hfst, hsnd, hfst', hsnd', everySecond_blockInput v s b 0 hs hb two_pos,
        everySecond_blockInput v s b 1 hs hb one_lt_two, ih (by omega) (2 * b) j (by omega) hj,
        ih (by omega) (2 * b + 1) j (by omega) hj]
      exact ⟨rfl, rfl⟩
    by_cases hhalf : j < 2 ^ s
    · exact (hstep j hhalf).1
    · obtain ⟨i, rfl⟩ := Nat.exists_eq_add_of_le' (not_lt.1 hhalf)
      exact (hstep i (by rw [pow_succ] at hj; omega)).2

/-- The schedule in place is the recursive transform, element by element. -/
theorem cplxAt_fft32 (v : List Word) (hlen : v.length = 32) (k : Nat) (hk : k < 32) :
    cplxAt (fft32 v) k = cplxAt (fftRecursive 5 v) k := by
  have h := cplxAt_fftAfter v 5 le_rfl 0 k (by decide) hk
  rwa [zero_mul, zero_add, blockInput_whole v hlen, ← fft32_eq_fftAfter] at h

end Sys2Proof.Machine
end

section
/-! PROOFS. The statements about the fast unit (42_dct_fast.md). -/

namespace Sys2Proof.Proofs

open Sys2Proof.Machine

/-- Settles O7: with LEN = 32 the bins are `postTwiddle` of the in-place transform, which is the recursive one. -/
theorem dctFastCompletesWithTheRecursiveFft : Obligations.DctFastCompletesWithTheRecursiveFft := by
  intro s hl
  refine ⟨dctFast s.sb, ?_, fun k => ?_⟩
  · have hx : exec .dctFast s = .next (completeTransform (dctFast s.sb) s) := if_pos hl
    rw [hx, ← hl]
    rfl
  · rw [dctFast_getElem, postTwiddle, cplxAt_fft32 _ (length_fold s.sb) k k.isLt]

/-- Settles O47: every butterfly of zeros writes zeros, and so does the last stage of products. -/
theorem fastUnitMapsZerosToZero : Obligations.FastUnitMapsZerosToZero := by
  intro x k hx
  rw [dctFast_getElem]
  exact isZero_postTwiddle (allZero_fft32 _ (isZero_fold x hx)) k

/-- Settles O48: the fold by its index, the load because the bit reversal is its own inverse. -/
theorem foldAndLoadPlaceEverySample : Obligations.FoldAndLoadPlaceEverySample := by
  refine fun x => ⟨length_fold x, length_fftLoad _, fun n hn => ⟨?_, ?_⟩, fun n hn => ?_, fun n hn => ?_⟩
  · rw [fold_getElem? x n (by omega)]
    simp [foldIndex, hn]
  · rw [fold_getElem? x (31 - n) (by omega)]
    simp [foldIndex, show ¬ 31 - n < 16 by omega, show 31 - (31 - n) = n by omega]
  · rw [List.getElem?_eq_getElem (by rw [length_fftLoad]; exact brev5_lt n)]
    simp [fftLoad, brev5_brev5 n hn, length_fold, hn]
  · exact ⟨brev5_lt n, testBit_brev5 n hn⟩

/-- Settles O49: the bounds and the indices butterfly by butterfly, and no element of a stage is touched twice. -/
theorem fftScheduleHasTheFiveStages : Obligations.FftScheduleHasTheFiveStages := by
  refine ⟨by decide, by decide, fun s hs => ⟨fun e he => ?_, ?_⟩⟩
  · have hall : ∀ s ∈ [1, 2, 3, 4, 5], ∀ e ∈ List.range 32, e ∈ touched (fftStage s) := by decide
    exact List.count_eq_one_of_mem (nodup_touched_fftStage s hs) (hall s hs e he)
  · have hall : ∀ s ∈ [1, 2, 3, 4, 5], ∀ i ∈ fftStage s,
        i.q = i.p + 2 ^ (s - 1) ∧ i.t = i.p % 2 ^ (s - 1) * 2 ^ (5 - s) := by decide
    exact hall s hs

end Sys2Proof.Proofs
end

section
/-! SUPPORT. The decimal digits of a number, padded to a width, and the number they write (R149, R150). -/

namespace Sys2Proof.Machine

/-! The number a string writes -/

@[simp] theorem glyphsValue_concat_digit (g : List Glyph) (d : Fin 10) :
    glyphsValue (g ++ [.digit d]) = 10 * glyphsValue g + d := by
  simp [glyphsValue]

theorem glyphsValue_append_point (g h : List Glyph) : glyphsValue (g ++ .point :: h) = glyphsValue (g ++ h) := by
  simp [glyphsValue]

theorem glyphsValue_zeros_append (k : Nat) (g : List Glyph) :
    glyphsValue (List.replicate k (.digit 0) ++ g) = glyphsValue g := by
  induction k with
  | zero => rfl
  | succ k ih => exact ih

theorem strippable_iff (g : Glyph) : strippable g = true ↔ g = .digit 0 ∨ g = .point := by simp [strippable]

theorem glyphsValue_of_strippable (g : List Glyph) (h : ∀ c ∈ g, strippable c = true) : glyphsValue g = 0 := by
  induction g with
  | nil => rfl
  | cons c g ih =>
    obtain ⟨hc, hg⟩ := List.forall_mem_cons.1 h
    obtain rfl | rfl := (strippable_iff c).1 hc
    · exact ih hg
    · exact ih hg

/-! The digits of a number -/

/-- The character of a decimal digit. -/
def digitGlyph (d : Nat) : Glyph := .digit (Fin.ofNat 10 d)

theorem digitGlyph_mod (d : Nat) : digitGlyph (d % 10) = digitGlyph d := by simp [digitGlyph, Fin.ofNat]

theorem digitGlyph_eq_zero_iff (d : Nat) (h : d < 10) : digitGlyph d = .digit 0 ↔ d = 0 := by
  simp [digitGlyph, Fin.ofNat, Fin.ext_iff, Nat.mod_eq_of_lt h]

theorem reverse_digits_append (q : Nat) (acc : List Glyph) (h0 : q ≠ 0) :
    ((Nat.digits 10 q).map digitGlyph).reverse ++ acc =
      ((Nat.digits 10 (q / 10)).map digitGlyph).reverse ++ digitGlyph q :: acc := by
  rw [Nat.digits_def' (by decide) (Nat.pos_of_ne_zero h0)]
  simp [digitGlyph_mod]

/-- With enough fuel the recursion writes Mathlib's digits, which come least significant first. -/
theorem decimalAux_eq_digits (fuel q : Nat) (acc : List Glyph) (h0 : q ≠ 0) (h : q < 10 ^ (fuel + 1)) :
    decimalAux fuel q acc = ((Nat.digits 10 q).map digitGlyph).reverse ++ acc := by
  induction fuel generalizing q acc with
  | zero =>
    rw [reverse_digits_append q acc h0, Nat.div_eq_of_lt (by simpa using h)]
    rfl
  | succ fuel ih =>
    rw [reverse_digits_append q acc h0, decimalAux]
    split
    · next hq =>
      rw [Nat.div_eq_of_lt hq]
      rfl
    · next hq => exact ih (q / 10) _ (by omega) (Nat.div_lt_of_lt_mul (by rwa [← pow_succ']))

theorem decimal_zero : decimal 0 = [.digit 0] := rfl

theorem decimal_eq_digits (q : Nat) (h0 : q ≠ 0) : decimal q = ((Nat.digits 10 q).map digitGlyph).reverse := by
  have hlt : q < 10 ^ (q.log2 + 1) := Nat.lt_log2_self.trans_le (Nat.pow_le_pow_left (by decide) _)
  rw [decimal, decimalAux_eq_digits _ q [] h0 hlt, List.append_nil]

theorem point_notMem_decimal (q : Nat) : Glyph.point ∉ decimal q := by
  by_cases h0 : q = 0
  · simp [h0, decimal_zero]
  · simp [decimal_eq_digits q h0, digitGlyph]

/-- A number has at most `n` digits exactly when it is below `10^n`; zero has one digit. -/
theorem length_decimal_le_iff (q n : Nat) (hn : n ≠ 0) : (decimal q).length ≤ n ↔ q < 10 ^ n := by
  by_cases h0 : q = 0
  · simp [h0, decimal_zero, Nat.one_le_iff_ne_zero.2 hn]
  · simpa [decimal_eq_digits q h0] using Nat.digits_length_le_iff (b := 10) (by decide) q (k := n)

theorem length_decimal_pos (q : Nat) : 0 < (decimal q).length := by
  by_cases h0 : q = 0
  · simp [h0, decimal_zero]
  · simpa [decimal_eq_digits q h0, List.length_pos_iff] using Nat.digits_ne_nil_iff_ne_zero.2 h0

/-- No leading zeros (R149). -/
theorem head?_decimal_eq_zero_iff (q : Nat) : (decimal q).head? = some (.digit 0) ↔ q = 0 := by
  by_cases h0 : q = 0
  · simp [h0, decimal_zero]
  · have hne : Nat.digits 10 q ≠ [] := Nat.digits_ne_nil_iff_ne_zero.2 h0
    have hlead := Nat.getLast_digit_ne_zero 10 h0
    have hlt := Nat.digits_lt_base (by decide) (List.getLast_mem hne)
    simp [decimal_eq_digits q h0, List.getLast?_eq_some_getLast hne, digitGlyph_eq_zero_iff _ hlt, hlead, h0]

theorem glyphsValue_digits (ds : List Nat) (h : ∀ d ∈ ds, d < 10) :
    glyphsValue (ds.map digitGlyph).reverse = Nat.ofDigits 10 ds := by
  induction ds with
  | nil => rfl
  | cons d ds ih =>
    obtain ⟨hd, hds⟩ := List.forall_mem_cons.1 h
    rw [List.map_cons, List.reverse_cons, digitGlyph, glyphsValue_concat_digit, ih hds, Nat.ofDigits_cons, add_comm]
    simp [Nat.mod_eq_of_lt hd]

@[simp] theorem glyphsValue_decimal (q : Nat) : glyphsValue (decimal q) = q := by
  by_cases h0 : q = 0
  · rw [h0, decimal_zero]
    rfl
  · rw [decimal_eq_digits q h0, glyphsValue_digits _ fun _ => Nat.digits_lt_base (by decide), Nat.ofDigits_digits]

/-! The padded digits -/

section
variable (q p : Nat)

theorem paddedDigits_zero : paddedDigits 0 p = List.replicate (p + 1) (.digit 0) := by
  simp [paddedDigits, decimal_zero, List.replicate_succ']

theorem length_paddedDigits : (paddedDigits q p).length = max (p + 1) (decimal q).length := by
  simp [paddedDigits]
  omega

theorem length_paddedDigits_of_lt (h : q < 10 ^ p) : (paddedDigits q p).length = p + 1 := by
  have hlt : q < 10 ^ (p + 1) := h.trans (Nat.pow_lt_pow_succ (by decide))
  rw [length_paddedDigits, max_eq_left ((length_decimal_le_iff q _ p.succ_ne_zero).2 hlt)]

theorem point_notMem_paddedDigits : Glyph.point ∉ paddedDigits q p := by
  simp [paddedDigits, point_notMem_decimal]

@[simp] theorem glyphsValue_paddedDigits : glyphsValue (paddedDigits q p) = q := by
  rw [paddedDigits, glyphsValue_zeros_append, glyphsValue_decimal]

/-- The digit in front of `P` others is 0 because of the padding, or because the number is 0 itself. -/
theorem head?_paddedDigits_eq_zero_iff : (paddedDigits q p).head? = some (.digit 0) ↔ q < 10 ^ p := by
  by_cases hp : (decimal q).length ≤ p
  · have hpos := length_decimal_pos q
    have hq := (length_decimal_le_iff q p (by omega)).1 hp
    simp [paddedDigits, List.head?_replicate, show p + 1 - (decimal q).length ≠ 0 by omega, hq]
  · rw [paddedDigits, show p + 1 - (decimal q).length = 0 by omega, List.replicate_zero, List.nil_append,
      head?_decimal_eq_zero_iff]
    cases p with
    | zero => simp
    | succ p =>
      have hq := (length_decimal_le_iff q _ p.succ_ne_zero).not.1 hp
      have hpow := Nat.pow_pos (n := p + 1) (show 0 < 10 by decide)
      omega

end

end Sys2Proof.Machine
end

section
/-! SUPPORT. A rendering: the rounded number it writes, its length and its first character (R149, R150). -/

namespace Sys2Proof.Machine

/-! The rounded number -/

/-- `n / 2^sh` rounded to an integer, half to even. -/
def halfEvenQuotient (n sh : Nat) : Nat := roundHalfEven (n / 2 ^ sh) (n % 2 ^ sh) sh

section
variable (n sh : Nat)

/-- `roundHalfEven_spec` as a distance. -/
theorem halfEvenQuotient_dist :
    2 * |(halfEvenQuotient n sh : Int) * 2 ^ sh - n| ≤ 2 ^ sh ∧
      (2 * |(halfEvenQuotient n sh : Int) * 2 ^ sh - n| = 2 ^ sh → halfEvenQuotient n sh % 2 = 0) := by
  obtain ⟨hlo, hhi, htie⟩ := roundHalfEven_spec n sh
  rw [← halfEvenQuotient] at hlo hhi htie
  zify at hlo hhi
  refine ⟨?_, fun h => htie ?_⟩
  · have habs : |(halfEvenQuotient n sh : Int) * 2 ^ sh - n| ≤ 2 ^ sh / 2 := abs_le.2 ⟨by omega, by omega⟩
    omega
  · zify
    obtain h' | h' := abs_choice ((halfEvenQuotient n sh : Int) * 2 ^ sh - n)
    · exact .inr (by linarith)
    · exact .inl (by linarith)

/-- Half a unit is a tie that goes to the even 0. -/
theorem halfEvenQuotient_eq_zero_iff : halfEvenQuotient n sh = 0 ↔ 2 * n ≤ 2 ^ sh := by
  obtain ⟨hlo, hhi, htie⟩ := roundHalfEven_spec n sh
  rw [← halfEvenQuotient] at hlo hhi htie
  constructor
  · intro h
    rwa [h, Nat.zero_mul, Nat.mul_zero, Nat.zero_add] at hlo
  · intro h
    have hpos := Nat.two_pow_pos sh
    have hle : halfEvenQuotient n sh ≤ 1 := Nat.le_of_mul_le_mul_right (by omega) hpos
    have hne : halfEvenQuotient n sh ≠ 1 := fun h1 => by
      rw [h1] at hhi htie
      omega
    omega

/-- A bound that is an integer bounds the rounding. -/
theorem halfEvenQuotient_le (m : Nat) (h : n ≤ m * 2 ^ sh) : halfEvenQuotient n sh ≤ m := by
  obtain ⟨-, hhi, -⟩ := roundHalfEven_spec n sh
  rw [← halfEvenQuotient] at hhi
  have hpos := Nat.two_pow_pos sh
  by_contra hlt
  have hmul := Nat.mul_le_mul_right (2 ^ sh) (Nat.lt_of_not_le hlt)
  rw [Nat.succ_mul] at hmul
  omega

end

section
variable (v : Word) (p : Nat)

theorem scaledRound_eq : scaledRound v p = halfEvenQuotient (magnitude v * 10 ^ p) 1074 := rfl

theorem scaledRound_eq_zero_iff : scaledRound v p = 0 ↔ 2 * magnitude v * 10 ^ p ≤ 2 ^ 1074 := by
  rw [scaledRound_eq, halfEvenQuotient_eq_zero_iff, Nat.mul_assoc]

theorem scaledRound_of_isZero (h : isZero v = true) : scaledRound v p = 0 := by
  rw [scaledRound_eq_zero_iff, (magnitude_eq_zero v).2 h, Nat.mul_zero, Nat.zero_mul]
  exact Nat.zero_le _

theorem scaledRound_le (m : Nat) (h : magnitude v ≤ m * 2 ^ 1074) : scaledRound v p ≤ m * 10 ^ p :=
  halfEvenQuotient_le _ _ _ (by rw [Nat.mul_right_comm]; exact Nat.mul_le_mul_right _ h)

/-- The largest finite value has 309 digits (R150). -/
theorem scaledRound_lt (h : isFinite v = true) : scaledRound v p < 10 ^ (309 + p) := by
  have hle := scaledRound_le v p ((2 ^ 53 - 1) * 2 ^ 971) ((magnitude_le v h).trans (by decide +kernel))
  have hlt : (2 ^ 53 - 1) * 2 ^ 971 < 10 ^ 309 := by decide +kernel
  rw [pow_add]
  exact hle.trans_lt (Nat.mul_lt_mul_of_pos_right hlt (Nat.pow_pos (by decide)))

/-! The string -/

/-- The digits in front of the point. -/
def integerPart : List Glyph :=
  (paddedDigits (scaledRound v p) p).take ((paddedDigits (scaledRound v p) p).length - p)

/-- The digits behind the point. -/
def fractionPart : List Glyph :=
  (paddedDigits (scaledRound v p) p).drop ((paddedDigits (scaledRound v p) p).length - p)

theorem render_eq : render v p = integerPart v p ++ .point :: fractionPart v p := rfl

theorem integerPart_append_fractionPart :
    integerPart v p ++ fractionPart v p = paddedDigits (scaledRound v p) p := List.take_append_drop _ _

theorem length_integerPart : (integerPart v p).length = max 1 ((decimal (scaledRound v p)).length - p) := by
  simp [integerPart, length_paddedDigits]
  omega

theorem length_fractionPart : (fractionPart v p).length = p := by
  simp [fractionPart, length_paddedDigits]
  omega

theorem integerPart_ne_nil : integerPart v p ≠ [] := by
  rw [← List.length_pos_iff, length_integerPart]
  omega

theorem length_integerPart_le (h : isFinite v = true) : (integerPart v p).length ≤ 309 := by
  have hle := (length_decimal_le_iff _ _ (by omega)).2 (scaledRound_lt v p h)
  rw [length_integerPart]
  omega

/-- The integer part begins with 0 exactly where the rendered value is below 1. -/
theorem head?_integerPart_eq_zero_iff :
    (integerPart v p).head? = some (.digit 0) ↔ scaledRound v p < 10 ^ p := by
  rw [← head?_paddedDigits_eq_zero_iff, ← integerPart_append_fractionPart,
    List.head?_append_of_ne_nil _ (integerPart_ne_nil v p)]

theorem length_integerPart_of_lt (h : scaledRound v p < 10 ^ p) : (integerPart v p).length = 1 := by
  have hlen := length_paddedDigits_of_lt _ _ h
  rw [← integerPart_append_fractionPart, List.length_append, length_fractionPart] at hlen
  omega

theorem length_render : (render v p).length = (integerPart v p).length + 1 + p := by
  rw [render_eq, List.length_append, List.length_cons, length_fractionPart]
  omega

theorem le_length_render : p + 2 ≤ (render v p).length := by
  rw [length_render, length_integerPart]
  omega

theorem glyphsValue_render : glyphsValue (render v p) = scaledRound v p := by
  rw [render_eq, glyphsValue_append_point, integerPart_append_fractionPart, glyphsValue_paddedDigits]

/-- Alignment strips the first character exactly where the rendered value is below 1 (R160 item 2). -/
theorem exists_render_eq_cons :
    ∃ g t, render v p = g :: t ∧ (strippable g = true ↔ scaledRound v p < 10 ^ p) := by
  obtain ⟨g, t, hip⟩ := List.exists_cons_of_ne_nil (integerPart_ne_nil v p)
  refine ⟨g, t ++ .point :: fractionPart v p, by rw [render_eq, hip, List.cons_append], ?_⟩
  have hg : g ≠ .point := by
    rintro rfl
    have hno := point_notMem_paddedDigits (scaledRound v p) p
    simp [← integerPart_append_fractionPart, hip] at hno
  rw [← head?_integerPart_eq_zero_iff, hip, strippable_iff]
  simp [hg]

/-- A value that is rounded to 0 is rendered without another digit (R149). -/
theorem strippable_of_mem_render (h : scaledRound v p = 0) (g : Glyph) (hg : g ∈ render v p) :
    strippable g = true := by
  have hdigits (hg : g ∈ paddedDigits (scaledRound v p) p) : g = .digit 0 := by
    rw [h, paddedDigits_zero] at hg
    exact List.eq_of_mem_replicate hg
  rw [← integerPart_append_fractionPart, List.mem_append] at hdigits
  rw [render_eq, List.mem_append, List.mem_cons] at hg
  rw [strippable_iff]
  obtain hg | hg | hg := hg
  · exact .inl (hdigits (.inl hg))
  · exact .inr hg
  · exact .inl (hdigits (.inr hg))

end

end Sys2Proof.Machine
end

section
/-! SUPPORT. What the alignment removes (R153), and the verdict by the steps of the comparison (R158). -/

namespace Sys2Proof.Machine

/-! Alignment -/

@[simp] theorem align_nil_left (sb : List Glyph) : align [] sb = ([], sb) := by simp [align]

@[simp] theorem align_nil_right (sa : List Glyph) : align sa [] = (sa, []) := by simp [align]

theorem align_cons_of_strippable {a b : Glyph} (sa sb : List Glyph)
    (h : strippable a = true ∧ strippable b = true) : align (a :: sa) (b :: sb) = align sa sb := by
  simp [align, h]

theorem align_cons_of_not_strippable {a b : Glyph} (sa sb : List Glyph)
    (h : ¬ (strippable a = true ∧ strippable b = true)) : align (a :: sa) (b :: sb) = (a :: sa, b :: sb) := by
  simp only [align, Bool.and_eq_true, if_neg h]

/-- Where the alignment stops: a string is empty or leads with another character. -/
def Stopped (sa sb : List Glyph) : Prop :=
  sa = [] ∨ sb = [] ∨ (∃ g ∈ sa.head?, ¬ strippable g = true) ∨ ∃ g ∈ sb.head?, ¬ strippable g = true

/-- The alignment removes the first `n` characters of both strings. -/
structure AlignsBy (n : Nat) (sa sb : List Glyph) : Prop where
  align_eq : align sa sb = (sa.drop n, sb.drop n)
  le_left : n ≤ sa.length
  le_right : n ≤ sb.length
  stripped : ∀ g ∈ sa.take n ++ sb.take n, strippable g = true
  stopped : Stopped (sa.drop n) (sb.drop n)

theorem AlignsBy.zero {sa sb : List Glyph} (h : align sa sb = (sa, sb)) (hstop : Stopped sa sb) : AlignsBy 0 sa sb :=
  ⟨h, Nat.zero_le _, Nat.zero_le _, by simp, hstop⟩

theorem AlignsBy.succ {n : Nat} {a b : Glyph} {sa sb : List Glyph} (h : strippable a = true ∧ strippable b = true)
    (hal : AlignsBy n sa sb) : AlignsBy (n + 1) (a :: sa) (b :: sb) where
  align_eq := (align_cons_of_strippable sa sb h).trans hal.align_eq
  le_left := Nat.succ_le_succ hal.le_left
  le_right := Nat.succ_le_succ hal.le_right
  stripped := by simpa [h, or_imp, forall_and] using hal.stripped
  stopped := hal.stopped

theorem exists_alignsBy (sa sb : List Glyph) : ∃ n, AlignsBy n sa sb := by
  induction sa generalizing sb with
  | nil => exact ⟨0, .zero (align_nil_left sb) (.inl rfl)⟩
  | cons a sa ih =>
    cases sb with
    | nil => exact ⟨0, .zero (align_nil_right _) (.inr (.inl rfl))⟩
    | cons b sb =>
      by_cases h : strippable a = true ∧ strippable b = true
      · obtain ⟨n, hal⟩ := ih sb
        exact ⟨n + 1, hal.succ h⟩
      · refine ⟨0, .zero (align_cons_of_not_strippable sa sb h) ?_⟩
        rw [Decidable.not_and_iff_or_not] at h
        simpa [Stopped] using h

theorem align_comm (sa sb : List Glyph) : align sb sa = (align sa sb).swap := by
  induction sa generalizing sb with
  | nil => simp
  | cons a sa ih =>
    cases sb with
    | nil => simp
    | cons b sb =>
      by_cases h : strippable a = true ∧ strippable b = true
      · rw [align_cons_of_strippable sb sa h.symm, align_cons_of_strippable sa sb h, ih]
      · rw [align_cons_of_not_strippable sb sa (mt And.symm h), align_cons_of_not_strippable sa sb h]
        rfl

theorem align_self (s : List Glyph) : ∃ t, align s s = (t, t) := by
  obtain ⟨n, h⟩ := exists_alignsBy s s
  exact ⟨_, h.align_eq⟩

/-- Where the first characters agree after the alignment, the zeros of one string are zeros of the other too. -/
theorem strippable_of_head?_align_eq (sa sb : List Glyph) (ha : ∀ g ∈ sa, strippable g = true)
    (h : (align sa sb).1.head? = (align sa sb).2.head?) : ∀ g ∈ sb, strippable g = true := by
  obtain ⟨n, hal, -, -, hstrip, hstop⟩ := exists_alignsBy sa sb
  simp only [hal] at h
  have hsb : sb.drop n = [] := by
    obtain hnil | hnil | ⟨g, hg, hns⟩ | ⟨g, hg, hns⟩ := hstop
    · rwa [hnil, eq_comm, List.head?_nil, List.head?_eq_none_iff] at h
    · exact hnil
    · exact absurd (ha g (List.mem_of_mem_drop (List.mem_of_mem_head? hg))) hns
    · rw [← h] at hg
      exact absurd (ha g (List.mem_of_mem_drop (List.mem_of_mem_head? hg))) hns
  intro g hg
  rw [← List.take_append_drop n sb, hsb, List.append_nil] at hg
  exact hstrip g (List.mem_append_right _ hg)

/-- A rendered value of 1 or more keeps both strings as they are (R160 item 2). -/
theorem align_render_of_le_left (a b : Word) (p : Nat) (h : 10 ^ p ≤ scaledRound a p) :
    align (render a p) (render b p) = (render a p, render b p) := by
  obtain ⟨g, t, ha, hg⟩ := exists_render_eq_cons a p
  obtain ⟨g', t', hb, -⟩ := exists_render_eq_cons b p
  rw [ha, hb]
  exact align_cons_of_not_strippable t t' fun hs => absurd (hg.1 hs.1) (Nat.not_lt.2 h)

theorem align_render_of_le_right (a b : Word) (p : Nat) (h : 10 ^ p ≤ scaledRound b p) :
    align (render a p) (render b p) = (render a p, render b p) := by
  rw [align_comm, align_render_of_le_left b a p h]
  rfl

/-- After the alignment two renderings have one length, or are both still longer than `P + 1` (R160 items 2, 3). -/
theorem length_align_render (a b : Word) (p : Nat) :
    (align (render a p) (render b p)).1.length = (align (render a p) (render b p)).2.length ∨
      (p + 2 ≤ (align (render a p) (render b p)).1.length ∧ p + 2 ≤ (align (render a p) (render b p)).2.length) := by
  have hle : p + 2 ≤ (render a p).length ∧ p + 2 ≤ (render b p).length := ⟨le_length_render a p, le_length_render b p⟩
  by_cases ha : scaledRound a p < 10 ^ p
  · by_cases hb : scaledRound b p < 10 ^ p
    · obtain ⟨n, hal⟩ := exists_alignsBy (render a p) (render b p)
      left
      simp [hal.align_eq, length_render, length_integerPart_of_lt, ha, hb]
    · exact .inr (by rwa [align_render_of_le_right a b p (Nat.not_lt.1 hb)])
  · exact .inr (by rwa [align_render_of_le_left a b p (Nat.not_lt.1 ha)])

/-! The verdict -/

section
variable (sa sb : List Glyph) (s : Nat)

theorem compareAligned_eq_tooShort_iff :
    compareAligned sa sb s = .tooShort ↔ sa.length ≠ sb.length ∧ (sa.length < s ∨ sb.length < s) := by
  unfold compareAligned
  split_ifs <;> simp_all

theorem compareAligned_eq_agree_iff :
    compareAligned sa sb s = .agree ↔ compareAligned sa sb s ≠ .tooShort ∧ sa.take s = sb.take s := by
  unfold compareAligned
  split_ifs <;> simp_all

theorem compareAligned_eq_digitsDiffer_iff :
    compareAligned sa sb s = .digitsDiffer ↔ compareAligned sa sb s ≠ .tooShort ∧ sa.take s ≠ sb.take s := by
  unfold compareAligned
  split_ifs <;> simp_all

theorem compareAligned_comm : compareAligned sb sa s = compareAligned sa sb s := by
  simp only [compareAligned, ne_comm (a := sb.length), or_comm (a := sb.length < s), eq_comm (a := sb.take s)]

theorem compareAligned_self : compareAligned sa sa s = .agree := by simp [compareAligned]

theorem compareAligned_zero : compareAligned sa sb 0 = .agree := by simp [compareAligned]

/-- Strings that match at some `S` of at least 1 have one first character. -/
theorem head?_eq_of_agree (hs : 1 ≤ s) (h : compareAligned sa sb s = .agree) : sa.head? = sb.head? := by
  obtain ⟨-, htake⟩ := (compareAligned_eq_agree_iff sa sb s).1 h
  have hhead := congrArg List.head? htake
  rwa [List.head?_take, List.head?_take, if_neg (by omega), if_neg (by omega)] at hhead

end

section
variable (a b : Word) (s p : Nat)

/-- The sign test passes (R151). -/
def SignsMatch : Prop := isZero a = true ∨ isZero b = true ∨ signBit a = signBit b

/-- Steps 4 to 6 on the renderings (R153 to R155). -/
def renderedVerdict : Verdict :=
  compareAligned (align (render a p) (render b p)).1 (align (render a p) (render b p)).2 s

theorem sgn_eq_zero_iff : sgn a = 0 ↔ isZero a = true := by
  unfold sgn
  split_ifs <;> simp_all

theorem sgn_eq_sgn_iff (ha : ¬ isZero a = true) (hb : ¬ isZero b = true) : sgn a = sgn b ↔ signBit a = signBit b := by
  simp only [sgn, if_neg ha, if_neg hb]
  cases signBit a <;> cases signBit b <;> decide

theorem signsMatch_iff : SignsMatch a b ↔ ¬ (sgn a ≠ 0 ∧ sgn b ≠ 0 ∧ sgn a ≠ sgn b) := by
  rw [SignsMatch, ne_eq, ne_eq, sgn_eq_zero_iff, sgn_eq_zero_iff]
  by_cases ha : isZero a = true
  · simp [ha]
  · by_cases hb : isZero b = true
    · simp [hb]
    · simp [ha, hb, sgn_eq_sgn_iff]

variable {a b} in
theorem SignsMatch.symm (h : SignsMatch a b) : SignsMatch b a := by
  unfold SignsMatch at *
  tauto

theorem cmpSig_of_not_finite (h : isFinite a = false ∨ isFinite b = false) : cmpSig a b s p = .nonFinite :=
  if_pos (by simpa using h)

theorem cmpSig_of_finite (ha : isFinite a = true) (hb : isFinite b = true) :
    cmpSig a b s p =
      if sgn a ≠ 0 ∧ sgn b ≠ 0 ∧ sgn a ≠ sgn b then .signsDiffer else renderedVerdict a b s p :=
  if_neg (by simp [ha, hb])

theorem cmpSig_of_signsMatch (ha : isFinite a = true) (hb : isFinite b = true) (h : SignsMatch a b) :
    cmpSig a b s p = renderedVerdict a b s p := by
  rw [cmpSig_of_finite a b s p ha hb, if_neg ((signsMatch_iff a b).1 h)]

theorem cmpSig_of_not_signsMatch (ha : isFinite a = true) (hb : isFinite b = true) (h : ¬ SignsMatch a b) :
    cmpSig a b s p = .signsDiffer := by
  rw [cmpSig_of_finite a b s p ha hb, if_pos (not_not.1 (mt (signsMatch_iff a b).2 h))]

/-- Which step decides (R158). -/
theorem cmpSig_cases :
    ((isFinite a = false ∨ isFinite b = false) ∧ cmpSig a b s p = .nonFinite) ∨
      (isFinite a = true ∧ isFinite b = true ∧ ¬ SignsMatch a b ∧ cmpSig a b s p = .signsDiffer) ∨
      (isFinite a = true ∧ isFinite b = true ∧ SignsMatch a b ∧ cmpSig a b s p = renderedVerdict a b s p) := by
  by_cases hfin : isFinite a = true ∧ isFinite b = true
  · obtain ⟨ha, hb⟩ := hfin
    by_cases hs : SignsMatch a b
    · exact .inr (.inr ⟨ha, hb, hs, cmpSig_of_signsMatch a b s p ha hb hs⟩)
    · exact .inr (.inl ⟨ha, hb, hs, cmpSig_of_not_signsMatch a b s p ha hb hs⟩)
  · rw [Decidable.not_and_iff_or_not, Bool.not_eq_true, Bool.not_eq_true] at hfin
    exact .inl ⟨hfin, cmpSig_of_not_finite a b s p hfin⟩

/-- A verdict that only the steps on the renderings give. -/
theorem renderedVerdict_of_cmpSig {r : Verdict} (h : cmpSig a b s p = r) (hn : r ≠ .nonFinite)
    (hs : r ≠ .signsDiffer) : renderedVerdict a b s p = r := by
  obtain ⟨-, hv⟩ | ⟨-, -, -, hv⟩ | ⟨-, -, -, hv⟩ := cmpSig_cases a b s p
  · exact absurd (h.symm.trans hv) hn
  · exact absurd (h.symm.trans hv) hs
  · exact hv.symm.trans h

theorem renderedVerdict_ne : renderedVerdict a b s p ≠ .nonFinite ∧ renderedVerdict a b s p ≠ .signsDiffer := by
  unfold renderedVerdict compareAligned
  split_ifs <;> decide

theorem renderedVerdict_comm : renderedVerdict b a s p = renderedVerdict a b s p := by
  rw [renderedVerdict, align_comm (render a p), compareAligned_comm]
  rfl

theorem renderedVerdict_of_scaledRound_eq (h : scaledRound a p = scaledRound b p) :
    renderedVerdict a b s p = .agree := by
  have hr : render a p = render b p := by simp only [render, h]
  obtain ⟨t, ht⟩ := align_self (render b p)
  rw [renderedVerdict, hr, ht, compareAligned_self]

/-- Strings that agree at some `S` of at least 1 are aligned on the same character. -/
theorem head?_align_render_eq (hs : 1 ≤ s) (h : cmpSig a b s p = .agree) :
    (align (render a p) (render b p)).1.head? = (align (render a p) (render b p)).2.head? :=
  head?_eq_of_agree _ _ s hs (renderedVerdict_of_cmpSig a b s p h (by decide) (by decide))

end

end Sys2Proof.Machine
end

section
/-! PROOFS. The statements about the comparator (43_compare.md). -/

namespace Sys2Proof.Proofs

open Sys2Proof.Machine

/-- Settles O50: the digits in front of the point and behind it are the padded digits of the rounded number, which begin
with 0 only where there is one digit in front. -/
theorem renderingHasTheFixedPointShape : Obligations.RenderingHasTheFixedPointShape := by
  intro v p hv _
  refine ⟨integerPart v p, fractionPart v p, render_eq v p, List.length_pos_iff.2 (integerPart_ne_nil v p),
    length_integerPart_le v p hv, length_fractionPart v p, fun g hg => ?_, fun hzero => ?_⟩
  · rw [integerPart_append_fractionPart] at hg
    exact ne_of_mem_of_not_mem hg (point_notMem_paddedDigits _ _)
  · have hlen := length_integerPart_of_lt v p ((head?_integerPart_eq_zero_iff v p).1 hzero)
    obtain ⟨g, hg⟩ := List.length_eq_one_iff.1 hlen
    rw [hg, List.head?_cons, Option.some_inj] at hzero
    rw [hg, hzero]

/-- Settles O51: the rendering writes the scaled magnitude rounded half to even. -/
theorem renderingIsTheNearestDecimal : Obligations.RenderingIsTheNearestDecimal := by
  intro v p _ _
  have h := halfEvenQuotient_dist (magnitude v * 10 ^ p) 1074
  rw [← scaledRound_eq] at h
  rw [glyphsValue_render]
  exact_mod_cast h

/-- Settles O52, by induction on the strings. -/
theorem alignmentStripsBothInLockStep : Obligations.AlignmentStripsBothInLockStep := by
  intro sa sb
  obtain ⟨n, hal, hna, hnb, hstrip, hstop⟩ := exists_alignsBy sa sb
  simp only [Stopped, strippable_iff, not_or] at hstrip hstop
  exact ⟨n, hal, hna, hnb, hstrip, hstop⟩

/-- Settles O53: every step treats the two operands alike. -/
theorem comparatorIsSymmetric : Obligations.ComparatorIsSymmetric := by
  intro a b s p
  obtain ⟨hfin, h⟩ | ⟨ha, hb, hs, h⟩ | ⟨ha, hb, hs, h⟩ := cmpSig_cases a b s p
  · rw [h, cmpSig_of_not_finite b a s p hfin.symm]
  · rw [h, cmpSig_of_not_signsMatch b a s p hb ha (mt SignsMatch.symm hs)]
  · rw [h, cmpSig_of_signsMatch b a s p hb ha hs.symm, renderedVerdict_comm]

/-- Settles O54: equal magnitudes are rendered alike, and equal strings match. -/
theorem comparatorIsReflexiveOnFiniteValues : Obligations.ComparatorIsReflexiveOnFiniteValues := by
  refine fun a s p => ⟨fun ha => ?_, ?_⟩
  · rw [cmpSig_of_signsMatch a a s p ha ha (.inr (.inr rfl)), renderedVerdict_of_scaledRound_eq a a s p rfl]
  · have hzero (sign : Bool) := scaledRound_of_isZero (zeroOf sign) p (isZero_zeroOf sign)
    rw [cmpSig_of_signsMatch _ _ s p (isFinite_zeroOf _) (isFinite_zeroOf _) (.inl (isZero_zeroOf _)),
      renderedVerdict_of_scaledRound_eq _ _ s p ((hzero false).trans (hzero true).symm)]

/-- Settles O55, by the step that decides. -/
theorem nonFiniteAndSignTestsComeFirst : Obligations.NonFiniteAndSignTestsComeFirst := by
  intro a b s p
  have hsigns : ¬ SignsMatch a b ↔ isZero a = false ∧ isZero b = false ∧ signBit a ≠ signBit b := by
    simp [SignsMatch]
  refine ⟨?_, ?_, fun ha hb hs sa sb hal => ?_, ?_⟩
  · obtain ⟨hfin, h⟩ | ⟨ha, hb, -, h⟩ | ⟨ha, hb, -, h⟩ := cmpSig_cases a b s p
    · simp [h, hfin]
    · simp [h, ha, hb]
    · simp [h, ha, hb, renderedVerdict_ne]
  · rw [← hsigns]
    obtain ⟨hfin, h⟩ | ⟨ha, hb, hs, h⟩ | ⟨ha, hb, hs, h⟩ := cmpSig_cases a b s p
    · obtain hf | hf := hfin <;> simp [h, hf]
    · simp [h, ha, hb, hs]
    · simp [h, hs, renderedVerdict_ne]
  · rw [cmpSig_of_signsMatch a b s p ha hb hs, renderedVerdict, hal]
    exact ⟨compareAligned_eq_tooShort_iff sa sb s, compareAligned_eq_agree_iff sa sb s,
      compareAligned_eq_digitsDiffer_iff sa sb s⟩
  · obtain ⟨-, h⟩ | ⟨-, -, -, h⟩ | ⟨-, -, -, h⟩ := cmpSig_cases a b 0 p
    · simp [h]
    · simp [h]
    · simp [h, renderedVerdict, compareAligned_zero]

/-- Settles O56: strings of different length are both longer than `P + 1`. -/
theorem lengthTestNeverDecidesForSmallS : Obligations.LengthTestNeverDecidesForSmallS := by
  intro a b s p _ hs h
  obtain ⟨hne, hlt⟩ := (compareAligned_eq_tooShort_iff _ _ s).1
    (renderedVerdict_of_cmpSig a b s p h (by decide) (by decide))
  obtain heq | ⟨hla, hlb⟩ := length_align_render a b p
  · exact hne heq
  · omega

/-- Settles O57: nothing is stripped, and the first characters are 0 and another digit. -/
theorem valuesStraddlingOneNeverMatch : Obligations.ValuesStraddlingOneNeverMatch := by
  intro a b s p _ hs ha hb h
  obtain ⟨g, t, hra, hg⟩ := exists_render_eq_cons a p
  obtain ⟨g', t', hrb, hg'⟩ := exists_render_eq_cons b p
  have hhead := head?_align_render_eq a b s p hs h
  rw [align_render_of_le_right a b p hb, hra, hrb, List.head?_cons, List.head?_cons, Option.some_inj] at hhead
  rw [← hhead, hg] at hg'
  exact Nat.not_lt.2 hb (hg'.1 ha)

/-- Settles O58: a match strips both strings to nothing, so both write 0. -/
theorem zeroMatchesExactlyTheInvisibleValues : Obligations.ZeroMatchesExactlyTheInvisibleValues := by
  intro z v s p hz hv _ hs
  have hround := scaledRound_of_isZero z p hz
  rw [← scaledRound_eq_zero_iff]
  constructor
  · intro h
    rw [← glyphsValue_render]
    exact glyphsValue_of_strippable _ (strippable_of_head?_align_eq (render z p) _ (strippable_of_mem_render z p hround)
      (head?_align_render_eq z v s p hs h))
  · intro h
    rw [cmpSig_of_signsMatch z v s p (isFinite_of_isZero z hz) hv (.inl hz),
      renderedVerdict_of_scaledRound_eq z v s p (hround.trans h.symm)]

/-- Settles O59, by evaluation of the three pairs. -/
theorem nearZeroPairsAreNotEqual : Obligations.NearZeroPairsAreNotEqual := by
  unfold Obligations.NearZeroPairsAreNotEqual
  decide +kernel

end Sys2Proof.Proofs
end

section
/-! SUPPORT. When `Exec` raises each of the three errors (R171 to R173), and what a state is after it (R176). -/

namespace Sys2Proof.Machine

/-- The state after an error, in one equation: the three writes of R176. -/
theorem raise_eq (e : CmdError) (s : State) :
    raise e s =
      { s with rstat := statusWord e.code (headerOpc s.hdr) s.len 0 0, ridx := 0, phase := .respond } :=
  rfl

/-- The error that a legal header ends in when its payload has the wrong length (R171, R173). -/
def lengthError : Instr → CmdError
  | .dctDirect => .invalidLength
  | .dctFast   => .invalidLength
  | .cmpSig _  => .badOperandCount

/-- A wrong number of payload beats is found before anything else is done (R171, R173). -/
theorem exec_of_wrong_length (i : Instr) (s : State) (h : s.len ≠ operandCount i) :
    exec i s = .next (raise (lengthError i) s) := by
  cases i with
  | dctDirect => exact if_neg h
  | dctFast => exact if_neg h
  | cmpSig sig => exact if_neg h

/-- An illegal header decodes to a rejection, and each rejection ends in ILLEGAL_COMMAND (R172). -/
theorem execFrame_of_not_legalHeader (s : State) (h : legalHeader s.hdr = false) :
    execFrame s = .next (raise .illegalCommand s) := by
  cases hd : decode s.hdr with
  | illegal why => exact execFrame_of_illegal s why hd
  | legal i => exact absurd (legalHeader_of_legal s.hdr i hd) (by simp [h])

end Sys2Proof.Machine
end

section
/-! PROOFS. The statements about the errors (60_exceptions.md). -/

namespace Sys2Proof.Proofs

open Sys2Proof.Machine

/-- Settles O9: the instruction's own length error is raised. -/
theorem wrongLengthRaisesAndWritesNoResult : Obligations.WrongLengthRaisesAndWritesNoResult := by
  intro s
  refine ⟨fun hl => ⟨?_, ?_⟩, fun sig hl => ?_⟩
  · exact exec_of_wrong_length .dctDirect s hl
  · exact exec_of_wrong_length .dctFast s hl
  · exact exec_of_wrong_length (.cmpSig sig) s hl

/-- Settles O11: `raise_eq`, and the three codes read from their table. -/
theorem raiseWritesStatusIndexAndPhaseOnly : Obligations.RaiseWritesStatusIndexAndPhaseOnly :=
  fun e s => ⟨raise_eq e s, rfl, rfl, rfl⟩

/-- Settles O14: the step is `Exec` on the captured state, and there HDR holds the illegal header. -/
theorem illegalHeaderRaisesIllegalCommand : Obligations.IllegalHeaderRaisesIllegalCommand := by
  intro s b rest hn hc hl
  refine ⟨fun hp hill => ?_, fun hp hill => ?_⟩
  · rw [step_header s b rest hn hp hc, if_pos hl]
    exact execFrame_of_not_legalHeader _ hill
  · rw [step_payload s b rest hn hp hc, if_pos hl]
    exact execFrame_of_not_legalHeader _ hill

end Sys2Proof.Proofs
end

section
/-! SUPPORT. What is still to move on the two channels, phase by phase, and that each transfer edge moves one beat of it
(R60, R70, R81, R209). -/

namespace Sys2Proof.Machine

/-! Words as beats (R12, R70, R81) -/

theorem beatsOf_cons (w : Word) (ws : List Word) :
    beatsOf (w :: ws) = { data := w, last := ws.isEmpty } :: beatsOf ws := by
  cases ws <;> rfl

@[simp] theorem length_beatsOf (ws : List Word) : (beatsOf ws).length = ws.length := by
  induction ws with
  | nil => rfl
  | cons w ws ih => rw [beatsOf_cons, List.length_cons, List.length_cons, ih]

theorem getElem?_beatsOf (ws : List Word) (i : Nat) :
    (beatsOf ws)[i]? = ws[i]?.map fun w => { data := w, last := i + 1 == ws.length } := by
  induction ws generalizing i with
  | nil => rfl
  | cons w ws ih =>
    rw [beatsOf_cons]
    cases i with
    | zero => cases ws <;> simp
    | succ i => simp [ih]

/-! The words of the response in RSTAT and XB -/

/-- The words of the response that RSTAT and XB hold: RSTAT, then XB where 32 data beats follow (R59, R81). -/
def responseWords (s : State) : List Word :=
  s.rstat :: if responseBeats s.rstat = 33 then s.xb.toList else []

theorem length_responseWords (s : State) : (responseWords s).length = responseBeats s.rstat := by
  obtain h | h := responseBeats_eq s.rstat <;> simp [responseWords, h]

theorem responseWords_of_one_beat (s : State) (h : responseBeats s.rstat = 1) : responseWords s = [s.rstat] := by
  simp [responseWords, h]

/-- Until the response is complete, the beat offered is number RIDX of its beats (R60). -/
theorem offeredBeat_eq_getElem? (s : State) (h : s.ridx < responseBeats s.rstat) :
    offeredBeat s = (beatsOf (responseWords s))[s.ridx]? := by
  have hword : responseWord s = (responseWords s)[s.ridx]? := by
    unfold responseWord responseWords
    cases hi : s.ridx with
    | zero => rfl
    | succ i =>
      have h33 : responseBeats s.rstat = 33 := by have := responseBeats_eq s.rstat; omega
      simp [h33]
  rw [offeredBeat, hword, getElem?_beatsOf, length_responseWords]

/-! The payload received -/

/-- The words `p` are the payload received so far: LEN counts them, SB holds the first 32 (R27, R55, R56). -/
structure Collected (p : List Word) (s : State) : Prop where
  len : s.len.toNat = min p.length 0xFFFF
  samples : ∀ i : Fin 32, i.val < p.length → s.sb[i] = p.getD i 0

/-- A header beat starts an empty payload (R54). -/
theorem Collected.captureHeader (d : Word) (s : State) : Collected [] (captureHeader d s) where
  len := rfl
  samples _ hi := nomatch hi

/-- A payload beat adds its word at the end (R55). -/
theorem Collected.capturePayload {p : List Word} {s : State} (h : Collected p s) (d : Word) :
    Collected (p ++ [d]) (capturePayload d s) where
  len := by
    rw [capturePayload_len, nextLen_toNat, h.len, List.length_append, List.length_singleton]
    omega
  samples i hi := by
    have hlen := h.len
    rw [List.length_append, List.length_singleton] at hi
    rw [capturePayload_sb, storeSample_getElem]
    split
    · next he =>
      have : i.val = p.length := by omega
      simp [this]
    · next hne =>
      have hlt : i.val < p.length := by omega
      rw [h.samples i hlt, List.getD_append _ _ _ _ hlt]

section
variable {p : List Word} {s : State} (h : Collected p s)
include h

theorem Collected.len_eq : s.len = BitVec.ofNat 16 (min p.length 0xFFFF) := by
  rw [← h.len, BitVec.ofNat_toNat, BitVec.setWidth_eq]

/-- Below the saturation LEN is the number of payload words (R27). -/
theorem Collected.len_eq_iff (k : BitVec 16) (hk : k.toNat < 0xFFFF) : s.len = k ↔ p.length = k.toNat := by
  rw [← BitVec.toNat_inj, h.len]
  omega

/-- 32 payload words are the Sample Block (R58). -/
theorem Collected.sb_eq (hp : p.length = 32) : s.sb = Vector.ofFn fun i : Fin 32 => p.getD i 0 := by
  apply Vector.ext
  intro i hi
  rw [Vector.getElem_ofFn]
  exact h.samples ⟨i, hi⟩ (by simp [hp, hi])

end

/-! `Resp`, one equation for each outcome (R209) -/

section
variable (cfg : Config) (h : Word) (p : List Word)

theorem legalHeader_eq_false_iff :
    legalHeader h = false ↔
      headerRsv h ≠ 0 ∨ ¬ (headerOpc h = 0x01 ∨ headerOpc h = 0x02 ∨ headerOpc h = 0x03) ∨
        ((headerOpc h = 0x01 ∨ headerOpc h = 0x02) ∧ headerS h ≠ 0) := by
  rw [← Bool.not_eq_true, legalHeader, Bool.and_eq_true, Bool.and_eq_true, headerReservedClear_iff,
    headerOpcodeKnown_iff, headerSZeroOnTransform_iff]
  tauto

/-- A legal header other than `CMP.SIG` is a transform's (R72, R76). -/
theorem headerOpc_of_transform (hl : legalHeader h = true) (hopc : headerOpc h ≠ 0x03) :
    headerOpc h = 0x01 ∨ headerOpc h = 0x02 :=
  (headerOpc_of_legalHeader h hl).imp_right (·.resolve_right hopc)

theorem resp_illegal (hl : legalHeader h = false) :
    resp cfg ⟨h, p⟩ = [statusWord (CmdError.code .illegalCommand) (headerOpc h)
      (BitVec.ofNat 16 (min p.length 0xFFFF)) 0 0] :=
  if_pos ((legalHeader_eq_false_iff h).1 hl)

theorem resp_transform (hl : legalHeader h = true) (hopc : headerOpc h ≠ 0x03) :
    resp cfg ⟨h, p⟩ =
      if p.length = 32 then
        statusWord statusOk (headerOpc h) 32 0 0 :: (transformOf h (Vector.ofFn fun i : Fin 32 => p.getD i 0)).toList
      else [statusWord (CmdError.code .invalidLength) (headerOpc h) (BitVec.ofNat 16 (min p.length 0xFFFF)) 0 0] := by
  have hlegal := mt (legalHeader_eq_false_iff h).2 (by simp [hl])
  exact (if_neg hlegal).trans ((if_pos (headerOpc_of_transform h hl hopc)).trans (ite_not ..))

theorem resp_compare (hl : legalHeader h = true) (hopc : headerOpc h = 0x03) :
    resp cfg ⟨h, p⟩ =
      if p.length = 2 then
        [statusWord statusOk 0x03 2 (cmpSig (p.getD 0 0) (p.getD 1 0) (headerS h).toNat cfg.pFrac).matchBit
          (cmpSig (p.getD 0 0) (p.getD 1 0) (headerS h).toNat cfg.pFrac).reason]
      else [statusWord (CmdError.code .badOperandCount) 0x03 (BitVec.ofNat 16 (min p.length 0xFFFF)) 0 0] := by
  have hlegal := mt (legalHeader_eq_false_iff h).2 (by simp [hl])
  have hnot : ¬ (headerOpc h = 0x01 ∨ headerOpc h = 0x02) := by simp [hopc]
  exact (if_neg hlegal).trans ((if_neg hnot).trans (ite_not ..))

end

/-- `Exec` leaves the response of the frame collected in RSTAT and XB (R58, R209). -/
theorem responseWords_execFrame {p : List Word} {s t : State} (hcol : Collected p s) (h : execFrame s = .next t) :
    responseWords t = resp s.cfg ⟨s.hdr, p⟩ := by
  cases hl : legalHeader s.hdr with
  | false =>
    rw [execFrame_of_not_legalHeader s hl] at h
    cases h
    rw [resp_illegal _ _ _ hl, ← hcol.len_eq]
    exact responseWords_of_one_beat _ (responseBeats_error ..)
  | true =>
    obtain ⟨i, hd⟩ := decode_of_legalHeader s.hdr hl
    by_cases hopc : headerOpc s.hdr = 0x03
    · have htwo : s.len = 2 ↔ p.length = 2 := hcol.len_eq_iff 2 (by decide)
      rw [execFrame_compare s i hd hopc] at h
      cases h
      rw [resp_compare _ _ _ hl hopc, ← hcol.len_eq, ← hopc, if_congr htwo rfl rfl]
      split
      · next hp =>
        have h0 : s.sb[0] = p.getD 0 0 := hcol.samples 0 (by simp [hp])
        have h1 : s.sb[1] = p.getD 1 0 := hcol.samples 1 (by simp [hp])
        rw [← h0, ← h1, ← htwo.2 hp]
        exact responseWords_of_one_beat _ (by simp [hopc])
      · exact responseWords_of_one_beat _ (responseBeats_error ..)
    · have hfull : s.len = 32 ↔ p.length = 32 := hcol.len_eq_iff 32 (by decide)
      rw [execFrame_transform s i hd hopc] at h
      cases h
      rw [resp_transform _ _ _ hl hopc, ← hcol.len_eq, if_congr hfull rfl rfl]
      split
      · next hp =>
        have h33 : responseBeats (statusWord statusOk (headerOpc s.hdr) s.len 0 0) = 33 := by
          rw [responseBeats_statusWord, if_pos ⟨rfl, headerOpc_of_transform s.hdr hl hopc⟩]
        rw [← hcol.sb_eq hp, ← hfull.2 hp, responseWords, completeTransform_rstat, if_pos h33, completeTransform_xb]
      · exact responseWords_of_one_beat _ (responseBeats_error ..)

/-! The frame in progress -/

/-- `InProgress s cmd rsp`: of the frame in progress, `cmd` are the beats still to be taken and `rsp` the beats still to
be sent. -/
inductive InProgress (s : State) : List Beat → List Beat → Prop where
  | idle (hp : s.phase = .idle) : InProgress s [] []
  | collect (p q : List Word) (hp : s.phase = .collect) (hq : q ≠ []) (hcol : Collected p s) :
      InProgress s (beatsOf q) (beatsOf (resp s.cfg ⟨s.hdr, p ++ q⟩))
  | respond (hp : s.phase = .respond) (hridx : s.ridx < responseBeats s.rstat) :
      InProgress s [] ((beatsOf (responseWords s)).drop s.ridx)

/-- After `Exec` the whole response is still to be sent. -/
theorem inProgress_execFrame {p : List Word} {s t : State} (hcol : Collected p s) (h : execFrame s = .next t) :
    InProgress t [] (beatsOf (resp s.cfg ⟨s.hdr, p⟩)) := by
  have hwords := responseWords_execFrame hcol h
  obtain ⟨u, hu, hphase, hridx, -⟩ := execFrame_next s
  rw [hu] at h
  cases h
  have hpos : t.ridx < responseBeats t.rstat := by have := responseBeats_eq t.rstat; omega
  have hprog := InProgress.respond hphase hpos
  rwa [hridx, hwords] at hprog

/-- A command beat leaves the words `q` after it to be taken, with the response to the whole frame. -/
theorem inProgress_acceptBeat {b : Beat} {p q : List Word} {s t : State} (h : acceptBeat b s = .next t)
    (hlast : b.last = q.isEmpty) (hcol : Collected p (capture b s)) :
    InProgress t (beatsOf q) (beatsOf (resp s.cfg ⟨(capture b s).hdr, p ++ q⟩)) := by
  obtain ⟨-, hcfg, -⟩ := capture_frame b s
  rw [← hcfg]
  cases q with
  | nil =>
    rw [acceptBeat_of_last b s hlast] at h
    rw [List.append_nil]
    exact inProgress_execFrame hcol h
  | cons w q =>
    rw [acceptBeat_of_not_last b s hlast] at h
    cases h
    exact .collect p (w :: q) rfl (List.cons_ne_nil w q) ⟨hcol.len, hcol.samples⟩

/-- What a beat is captured into does not depend on the command channel and the schedule. -/
theorem capture_of_channels (b : Beat) (s : State) (cmd : List Beat) (turns : List Turn) :
    capture b { s with cmd := cmd, turns := turns } = { capture b s with cmd := cmd, turns := turns } := by
  unfold capture
  split <;> rfl

/-- A command beat leaves the schedule: the edge has taken its entry off already (R52). -/
theorem acceptBeat_turns (b : Beat) (s t : State) (h : acceptBeat b s = .next t) : t.turns = s.turns := by
  obtain ⟨-, -, -, -, hturns⟩ := capture_frame b s
  cases hl : b.last with
  | false => rw [acceptBeat_of_not_last b s hl] at h; cases h; exact hturns
  | true =>
    obtain ⟨u, hu, -, -, -, -, -, -, -, -, hturns', -⟩ := execFrame_next (capture b s)
    rw [acceptBeat_of_last b s hl, hu] at h
    cases h
    exact hturns'.trans hturns

/-! Whole runs -/

/-- The beats of the responses to whole frames (R209). -/
def responsesTo (cfg : Config) (frames : List Frame) : List Beat := frames.flatMap fun f => beatsOf (resp cfg f)

/-- With the frame in progress and whole frames on the command channel, `out` are the beats still to be sent. -/
def Pending (s : State) (out : List Beat) : Prop :=
  ∃ (frames : List Frame) (cmd rsp : List Beat), InProgress s cmd rsp ∧ s.cmd = cmd ++ frames.flatMap frameBeats ∧
    out = rsp ++ responsesTo s.cfg frames

/-- The step answers a state in which one beat fewer is to move, the rest of the responses unchanged. -/
def MovesOneBeat (s : State) (out : List Beat) : Prop :=
  ∃ (t : State) (out' : List Beat), step s = .next t ∧ Pending t out' ∧ t.turns = s.turns.tail ∧
    t.rsp ++ out' = s.rsp ++ out ∧ t.cmd.length + out'.length + 1 = s.cmd.length + out.length

/-- A command beat is taken, the words `q` of its frame after it. -/
theorem movesOneBeat_command {s : State} {b : Beat} {p q : List Word} {frames : List Frame}
    (hn : nextTurn s = .transfer) (hp : s.phase ≠ .respond) (hlast : b.last = q.isEmpty)
    (hc : s.cmd = b :: (beatsOf q ++ frames.flatMap frameBeats)) (hcol : Collected p (capture b s)) :
    MovesOneBeat s (beatsOf (resp s.cfg ⟨(capture b s).hdr, p ++ q⟩) ++ responsesTo s.cfg frames) := by
  have hcapture := capture_of_channels b s (beatsOf q ++ frames.flatMap frameBeats) s.turns.tail
  obtain ⟨t, ht⟩ := acceptBeat_isNext b
    { s with cmd := beatsOf q ++ frames.flatMap frameBeats, turns := s.turns.tail }
  have hprog := inProgress_acceptBeat (p := p) ht hlast (by rw [hcapture]; exact ⟨hcol.len, hcol.samples⟩)
  obtain ⟨hcmd, hrsp⟩ := acceptBeat_channels b _ t ht
  obtain ⟨-, -, -, -, hcfg⟩ := acceptBeat_next b _ t ht
  rw [hcapture] at hprog
  refine ⟨t, _, (step_command s b _ hn hp hc).trans ht, ⟨frames, _, _, hprog, hcmd, by rw [hcfg]⟩,
    acceptBeat_turns b _ t ht, by rw [hrsp], ?_⟩
  rw [hcmd, hc, List.length_cons]
  exact Nat.add_right_comm ..

/-- A response beat is sent: number RIDX of the beats of the response. -/
theorem movesOneBeat_response {s : State} {frames : List Frame} (hn : nextTurn s = .transfer)
    (hp : s.phase = .respond) (hridx : s.ridx < responseBeats s.rstat) (hc : s.cmd = frames.flatMap frameBeats) :
    MovesOneBeat s ((beatsOf (responseWords s)).drop s.ridx ++ responsesTo s.cfg frames) := by
  have hlen : (beatsOf (responseWords s)).length = responseBeats s.rstat := by
    rw [length_beatsOf, length_responseWords]
  have hb := (offeredBeat_eq_getElem? s hridx).trans (List.getElem?_eq_getElem (hlen ▸ hridx))
  obtain ⟨-, hlast⟩ := offeredBeat_some s _ hb
  rw [List.drop_eq_getElem_cons (hlen ▸ hridx)]
  generalize (beatsOf (responseWords s))[s.ridx] = b at hb hlast ⊢
  have hstep : step s = .next (sendBeat b { s with turns := s.turns.tail }) := by
    rw [step_respond s hn hp, hb]
    simp [sendBeat, hp]
  have hprog : InProgress (sendBeat b { s with turns := s.turns.tail }) []
      ((beatsOf (responseWords s)).drop (s.ridx + 1)) := by
    by_cases hdone : s.ridx + 1 = responseBeats s.rstat
    · rw [List.drop_of_length_le (by omega)]
      exact .idle (by simp [hlast, hdone])
    · exact .respond (by simp [hlast, hdone, hp]) (by simp only [sendBeat_ridx, sendBeat_rstat]; omega)
  refine ⟨_, (beatsOf (responseWords s)).drop (s.ridx + 1) ++ responsesTo s.cfg frames, hstep,
    ⟨frames, _, _, hprog, hc, rfl⟩, rfl, List.append_assoc .., ?_⟩
  rw [sendBeat_cmd, List.cons_append, List.length_cons, Nat.add_assoc]

/-- A transfer edge moves a beat as long as one is to move (R52). -/
theorem Pending.movesOneBeat {s : State} {out : List Beat} (h : Pending s out) (hn : nextTurn s = .transfer)
    (hne : s.cmd.length + out.length ≠ 0) : MovesOneBeat s out := by
  obtain ⟨frames, cmd, rsp, hprog, hcmd, rfl⟩ := h
  cases hprog with
  | idle hp =>
    cases frames with
    | nil => simp [hcmd, responsesTo] at hne
    | cons f frames =>
      have hcap := capture_of_idle { data := f.header, last := f.payload.isEmpty } s hp
      have hmoves := movesOneBeat_command (frames := frames) hn (by simp [hp]) rfl
        (by simpa [frameBeats, beatsOf_cons] using hcmd) (hcap ▸ Collected.captureHeader f.header s)
      rwa [hcap] at hmoves
  | collect p q hp hq hcol =>
    cases q with
    | nil => exact absurd rfl hq
    | cons w q =>
      have hcap := capture_of_collect { data := w, last := q.isEmpty } s hp
      have hmoves := movesOneBeat_command (frames := frames) hn (by simp [hp]) rfl
        (by rw [hcmd, beatsOf_cons, List.cons_append]) (hcap ▸ hcol.capturePayload w)
      rwa [hcap, List.append_assoc] at hmoves
  | respond hp hridx => exact movesOneBeat_response hn hp hridx hcmd

/-- What is to move does not depend on the schedule (R205). -/
theorem Pending.of_turns {s : State} {out : List Beat} (h : Pending s out) (turns : List Turn) :
    Pending { s with turns := turns } out := by
  obtain ⟨frames, cmd, rsp, hprog, hcmd, rfl⟩ := h
  refine ⟨frames, cmd, rsp, ?_, hcmd, rfl⟩
  cases hprog with
  | idle hp => exact .idle hp
  | collect p q hp hq hcol => exact .collect (s := { s with turns := turns }) p q hp hq ⟨hcol.len, hcol.samples⟩
  | respond hp hridx => exact .respond (s := { s with turns := turns }) hp hridx

/-- Where no beat is to move, the block is in IDLE. -/
theorem Pending.phase_of_nil {s : State} (h : Pending s []) (hc : s.cmd = []) : s.phase = .idle := by
  obtain ⟨frames, cmd, rsp, hprog, hcmd, hout⟩ := h
  obtain ⟨hcmd', -⟩ := List.append_eq_nil_iff.1 (hcmd.symm.trans hc)
  obtain ⟨hrsp', -⟩ := List.append_eq_nil_iff.1 hout.symm
  cases hprog with
  | idle hp => exact hp
  | collect p q hp hq hcol =>
    have hlen := congrArg List.length hcmd'
    rw [length_beatsOf] at hlen
    exact absurd (List.eq_nil_of_length_eq_zero hlen) hq
  | respond hp hridx =>
    have hle := List.drop_eq_nil_iff.1 hrsp'
    rw [length_beatsOf, length_responseWords] at hle
    exact absurd hridx (Nat.not_lt.2 hle)

/-- A run over a schedule without a reset, with one transfer edge for each beat to move, moves them all. -/
theorem Pending.run {s : State} {out : List Beat} (h : Pending s out) (hr : Turn.reset ∉ s.turns)
    (hcount : s.turns.count .transfer = s.cmd.length + out.length) :
    ∃ t, runFor s.turns.length s = .next t ∧ t.phase = .idle ∧ t.cmd = [] ∧ t.turns = [] ∧
      t.rsp = s.rsp ++ out := by
  induction hts : s.turns generalizing s out with
  | nil =>
    rw [hts, List.count_nil] at hcount
    have hcmd : s.cmd = [] := List.eq_nil_of_length_eq_zero (by omega)
    obtain rfl : out = [] := List.eq_nil_of_length_eq_zero (by omega)
    exact ⟨s, rfl, h.phase_of_nil hcmd, hcmd, hts, (List.append_nil _).symm⟩
  | cons turn ts ih =>
    have hn : nextTurn s = turn := by rw [nextTurn, hts]; rfl
    rw [hts] at hr hcount
    have hr' : Turn.reset ∉ ts := fun hmem => hr (List.mem_cons_of_mem turn hmem)
    rw [List.length_cons]
    cases turn with
    | reset => exact absurd List.mem_cons_self hr
    | idle =>
      rw [runFor_succ_of_step _ _ _ (step_idle s hn), hts]
      exact ih (s := { s with turns := ts }) (h.of_turns ts) hr' hcount rfl
    | transfer =>
      rw [List.count_cons_self] at hcount
      obtain ⟨t, out', hstep, hpending, hturns, hrsp, hlen⟩ := h.movesOneBeat hn (by omega)
      rw [hts, List.tail_cons] at hturns
      rw [runFor_succ_of_step _ _ _ hstep, ← hrsp]
      exact ih hpending (hturns ▸ hr') (by rw [hturns]; omega) hturns

/-- The beats of the frames and of their responses, counted on the two channels. -/
theorem sum_exchangeBeats (cfg : Config) (frames : List Frame) :
    (frames.map (exchangeBeats cfg)).sum =
      (frames.flatMap frameBeats).length + (responsesTo cfg frames).length := by
  induction frames with
  | nil => rfl
  | cons f frames ih =>
    simp only [responsesTo] at ih
    simp only [responsesTo, exchangeBeats, List.map_cons, List.sum_cons, List.flatMap_cons, List.length_append,
      length_beatsOf, ih]
    omega

end Sys2Proof.Machine
end

section
/-! PROOFS. The statements about reset and whole runs (70_reset_and_hazards.md). -/

namespace Sys2Proof.Proofs

open Sys2Proof.Machine

/-- Settles O20: each clause is a field of `resetEdge`. -/
theorem resetEdgeAbandonsTheCommand : Obligations.ResetEdgeAbandonsTheCommand :=
  fun s hr => ⟨_, step_reset s hr, rfl, rfl, rfl, rfl, rfl, rfl, rfl⟩

/-- Settles O33: in IDLE all that is to move is the frames on the command channel and their responses. -/
theorem runAnswersEveryFrameWithResp : Obligations.RunAnswersEveryFrameWithResp := by
  intro s frames hp hcmd hr hcount
  have hpending : Pending s (responsesTo s.cfg frames) := ⟨frames, [], [], .idle hp, hcmd, rfl⟩
  exact hpending.run hr (by rw [hcount, sum_exchangeBeats, hcmd])

end Sys2Proof.Proofs
end
